-- ==== Sys2Proof/Word.lean ====
section
/-! DEFINITION. The words the decoder handles (00_scope.md R11, R12): stream bytes, port addresses,
32-bit patterns, and the four-byte chunk of a payload (43_typed_values.md R96). -/

namespace Sys2Proof

/-- A stream byte and a buffer slot's content, `BYTE_W = 8` bits (R9, R11). Bit 0 is the least significant. -/
abbrev Byte := BitVec 8

/-- A port address, `ADDR_W = 5` bits, 0..31 (R9, R50). -/
abbrev Addr := BitVec 5

/-- A 32-bit pattern with no meaning attached (R12). -/
abbrev Bits32 := BitVec 32

/-- Four payload bytes in arrival order: the chunk of a 4-byte decode type (20_memory.md R33, R93). -/
structure Chunk4 where
  b0 : Byte
  b1 : Byte
  b2 : Byte
  b3 : Byte
  deriving DecidableEq, Repr, Inhabited

end Sys2Proof
end

