-- ==== Sys2Proof/Config.lean ====
section
/-! DEFINITION. What is fixed for a decoder: its parameters (00_scope.md R9), the port configuration's
types (10_state.md R15, 40_port_config.md R64), and the constants the spec leaves open. -/

namespace Sys2Proof

/-- `NUM_PORTS` (R9): entries of the port configuration. -/
abbrev Config.numPorts : Nat := 32

/-- `LB_CAP` (R9, R20): slots of the lookahead buffer. -/
abbrev Config.lbCap : Nat := 6

/-- `MAX_VALUES` (R9): most typed values in one decoded value. -/
abbrev Config.maxValues : Nat := 4

/-- `T_STEP` (R9, 93_implementation_defined.md U11): clock periods from the acceptance of a byte to its
outcome in the signal binding. OPEN: no value of it can be proved (log 16). -/
opaque Config.tStep : Nat

/-- The binary64 not-a-number that the `n`-th call of `num` on an `F32` not-a-number gives: a sign bit over a
52-bit fraction. The spec fixes neither (93_implementation_defined.md U4): a free value, one draw per
call (log 13). -/
opaque Config.nanDraw : Nat → BitVec 53

/-- The closed set of decode types (R91). -/
inductive DecodeType where
  | char
  | u32
  | i32
  | f32
  | fixed16_16
  deriving DecidableEq, Repr, Inhabited

/-- One entry of `CFG`: "disabled" or a decode type (R15). -/
inductive CfgEntry where
  | disabled
  | type (t : DecodeType)
  deriving DecidableEq, Repr, Inhabited

/-- The port configuration `CFG[0..31]`, entry `a` for port address `a` (R15). -/
abbrev PortConfig := Vector CfgEntry Config.numPorts

/-- The configuration that observes nothing: every port disabled (40_port_config.md R65, corner case; in the
encoding of R60 the all-zero `cfg_i`, decision D4). `State.reset` uses it: DESIGN CHOICE, log 1. -/
def PortConfig.allDisabled : PortConfig := Vector.replicate Config.numPorts .disabled

end Sys2Proof
end

