-- ==== Sys2Proof/Syntax.lean ====
section
/-! DEFINITION. The instructions of spec/opcode_table.json: seven packet kinds and five reconstruct
operations (30_encoding.md R47, R63; 00_scope.md R10). -/

namespace Sys2Proof

/-- One constructor per row of the opcode table. A packet kind carries the fields of its header; the
payload stays in the lookahead buffer, where a later step may still be waiting for it (R86 to R89).
A reconstruct operation carries the port of the completed packet and the payload's chunks in arrival
order (R93, R95 to R99). -/
inductive Instr where
  /-- The six-byte synchronisation frame (R53, R80). -/
  | sync
  /-- The overflow marker `0x70` (R52, R81). -/
  | ovf
  /-- A hardware-source header, reported whole (R49, R82). -/
  | hwsrc (header : Byte)
  /-- A software-source header with size code `00` (R84). -/
  | swit0 (addr : Addr)
  /-- A software-source packet with one payload byte (R86). -/
  | swit1 (addr : Addr)
  /-- A software-source packet with two payload bytes (R87). -/
  | swit2 (addr : Addr)
  /-- A software-source packet with four payload bytes (R88). -/
  | swit4 (addr : Addr)
  /-- `DEC.CHAR`: each chunk is one byte (R95). -/
  | decChar (port : Addr) (chunks : List Byte)
  /-- `DEC.U32` (R96). -/
  | decU32 (port : Addr) (chunks : List Chunk4)
  /-- `DEC.I32` (R97). -/
  | decI32 (port : Addr) (chunks : List Chunk4)
  /-- `DEC.F32` (R98). -/
  | decF32 (port : Addr) (chunks : List Chunk4)
  /-- `DEC.Q16` (R99). -/
  | decQ16 (port : Addr) (chunks : List Chunk4)
  deriving DecidableEq, Repr

end Sys2Proof
end

