-- ==== Sys2Proof/WellFormed.lean ====
section
/-! DEFINITION. Which terms of `Instr` are instructions the hardware can meet. -/

namespace Sys2Proof

/-- A packet on a `Char` port has 1, 2 or 4 values (43_typed_values.md R94). -/
def charCountOk (n : Nat) : Bool := n == 1 || n == 2 || n == 4

/-- A packet on a 4-byte-type port has exactly one value (R94). -/
def wordCountOk (n : Nat) : Bool := n == 1

/-- The checks: a hardware-source header has bit 2 set (R49); an invalid header never names port 14, since
that byte is the overflow marker (R57, R84); the numbers of chunks are those of R94. -/
def Instr.wf : Instr → Bool
  | .sync => true
  | .ovf => true
  | .hwsrc h => h.getLsbD 2
  | .swit0 a => a != 14
  | .swit1 _ => true
  | .swit2 _ => true
  | .swit4 _ => true
  | .decChar _ cs => charCountOk cs.length
  | .decU32 _ cs => wordCountOk cs.length
  | .decI32 _ cs => wordCountOk cs.length
  | .decF32 _ cs => wordCountOk cs.length
  | .decQ16 _ cs => wordCountOk cs.length

end Sys2Proof
end

