-- ==== Sys2Proof/Decode.lean ====
section
/-! DEFINITION. From bytes to instructions and back (30_encoding.md): header fields, configuration codes, the
match on the lookahead buffer, the selection of a reconstruct operation, the encoder written from the same
tables, the opcode table itself, and the stream forms of R62. -/

namespace Sys2Proof

/-- Why bytes are no instruction. -/
inductive DecodeReject where
  /-- Nothing is buffered: there is no front byte to match (R56 presumes `cnt >= 1`). -/
  | noFrontByte
  /-- The port is disabled: no reconstruct operation is selected (R55). -/
  | disabledPort
  /-- Configuration code 6 or 7 (R60). -/
  | reservedCode
  /-- The bytes are not one complete software-source packet (R58). -/
  | notACompletePacket
  /-- The declared size is no multiple of the type's width (R38). -/
  | sizeMismatch
  deriving DecidableEq, Repr

/-! ### Header fields -/

/-- `addr = h[7:3]` (R50). -/
def addrOf (h : Byte) : Addr := h.extractLsb' 3 5

/-- `src = h[2]`: true for a hardware source (R49). -/
def srcOf (h : Byte) : Bool := h.getLsbD 2

/-- `ss = h[1:0]` (R51). -/
def ssOf (h : Byte) : BitVec 2 := h.extractLsb' 0 2

/-- The declared payload size of a size code; `00` declares none (R51). -/
def payloadSize (ss : BitVec 2) : Nat :=
  if ss = 1 then 1 else if ss = 2 then 2 else if ss = 3 then 4 else 0

/-- A software-source header byte: `addr`, bit 2 clear, `ss` (R48). -/
def softwareHeader (a : Addr) (ss : BitVec 2) : Byte := a ++ (0 : BitVec 1) ++ ss

/-- The overflow marker (R52). -/
def overflowMarker : Byte := 0x70

/-- The synchronisation pattern in slot order (R53). -/
def syncPattern : List Byte := [0x00, 0x00, 0x00, 0x00, 0x00, 0x80]

/-! ### The match on the buffer -/

/-- A software-source header by its size code (R56 test 4, R83). -/
def decodeSoftware (h : Byte) : Instr :=
  if ssOf h = 0 then .swit0 (addrOf h)
  else if ssOf h = 1 then .swit1 (addrOf h)
  else if ssOf h = 2 then .swit2 (addrOf h)
  else .swit4 (addrOf h)

/-- Tests 2 to 4 of the match: the front byte alone decides (R56, R57). -/
def decodeHeader (h : Byte) : Instr :=
  if h = overflowMarker then .ovf
  else if srcOf h then .hwsrc h
  else decodeSoftware h

/-- `MATCH` on the occupied slots in index order, in priority order (R56, 41_buffer_controller.md R73).
A list equal to the pattern has `cnt = 6`. -/
def decode (buf : List Byte) : Except DecodeReject Instr :=
  if buf = syncPattern then .ok .sync
  else match buf with
    | [] => .error .noFrontByte
    | h :: _ => .ok (decodeHeader h)

/-! ### Configuration codes (R60) -/

/-- The 3-bit code of a decode type. -/
def DecodeType.code : DecodeType → BitVec 3
  | .char => 1
  | .u32 => 2
  | .i32 => 3
  | .f32 => 4
  | .fixed16_16 => 5

/-- The 3-bit code of a configuration entry. -/
def CfgEntry.code : CfgEntry → BitVec 3
  | .disabled => 0
  | .type t => t.code

/-- The entry of a code; 6 and 7 are reserved. -/
def CfgEntry.ofCode? (c : BitVec 3) : Option CfgEntry :=
  if c = 0 then some .disabled
  else if c = 1 then some (.type .char)
  else if c = 2 then some (.type .u32)
  else if c = 3 then some (.type .i32)
  else if c = 4 then some (.type .f32)
  else if c = 5 then some (.type .fixed16_16)
  else none

/-- The encoded width in bytes (40_port_config.md R67, 43_typed_values.md R92). -/
def DecodeType.width : DecodeType → Nat
  | .char => 1
  | .u32 => 4
  | .i32 => 4
  | .f32 => 4
  | .fixed16_16 => 4

/-! ### Selecting a reconstruct operation (R55, R63, R93) -/

/-- The consecutive 4-byte chunks of a payload, first arrived first; bytes that fill no chunk are left out
(the size check of R85 comes before). -/
def chunks4 : List Byte → List Chunk4
  | a :: b :: c :: d :: rest => ⟨a, b, c, d⟩ :: chunks4 rest
  | _ => []

/-- The bytes of a chunk, in arrival order. -/
def Chunk4.bytes (c : Chunk4) : List Byte := [c.b0, c.b1, c.b2, c.b3]

/-- The reconstruct operation that a port's decode type selects for a payload. -/
def selectDec (t : DecodeType) (a : Addr) (pl : List Byte) : Instr :=
  match t with
  | .char => .decChar a pl
  | .u32 => .decU32 a (chunks4 pl)
  | .i32 => .decI32 a (chunks4 pl)
  | .f32 => .decF32 a (chunks4 pl)
  | .fixed16_16 => .decQ16 a (chunks4 pl)

/-- The reconstruct operation of a completed packet: the port's configuration code and the packet's bytes. -/
def decodeCompleted (code : BitVec 3) (packet : List Byte) : Except DecodeReject Instr :=
  match CfgEntry.ofCode? code with
  | none => .error .reservedCode
  | some .disabled => .error .disabledPort
  | some (.type t) =>
    match packet with
    | [] => .error .notACompletePacket
    | h :: pl =>
      if srcOf h || ssOf h == 0 || pl.length != payloadSize (ssOf h) then .error .notACompletePacket
      else if pl.length % t.width != 0 then .error .sizeMismatch
      else .ok (selectDec t (addrOf h) pl)

/-! ### The encoder -/

/-- What stands for an instruction: bytes of the stream, or, for a reconstruct operation, a configuration
code together with the completed packet it is applied to (R63, format `CFG3`). -/
inductive Encoding where
  | stream (bytes : List Byte)
  | completed (code : BitVec 3) (packet : List Byte)
  deriving DecidableEq, Repr

/-- The size code that declares `n` payload bytes (R51). -/
def ssOfPayload (n : Nat) : BitVec 2 := if n = 1 then 1 else if n = 2 then 2 else if n = 4 then 3 else 0

/-- A complete software-source packet: header, then payload (20_memory.md R32). -/
def softwarePacket (a : Addr) (pl : List Byte) : List Byte := softwareHeader a (ssOfPayload pl.length) :: pl

/-- The encoding of an instruction: the header byte, or all six bytes of the synchronisation frame, as the
match tests them; for a reconstruct operation its code and its packet. -/
def encode : Instr → Encoding
  | .sync => .stream syncPattern
  | .ovf => .stream [overflowMarker]
  | .hwsrc h => .stream [h]
  | .swit0 a => .stream [softwareHeader a 0]
  | .swit1 a => .stream [softwareHeader a 1]
  | .swit2 a => .stream [softwareHeader a 2]
  | .swit4 a => .stream [softwareHeader a 3]
  | .decChar a cs => .completed DecodeType.char.code (softwarePacket a cs)
  | .decU32 a cs => .completed DecodeType.u32.code (softwarePacket a (cs.flatMap Chunk4.bytes))
  | .decI32 a cs => .completed DecodeType.i32.code (softwarePacket a (cs.flatMap Chunk4.bytes))
  | .decF32 a cs => .completed DecodeType.f32.code (softwarePacket a (cs.flatMap Chunk4.bytes))
  | .decQ16 a cs => .completed DecodeType.fixed16_16.code (softwarePacket a (cs.flatMap Chunk4.bytes))

/-- The decoder on either form. -/
def decodeEncoding : Encoding → Except DecodeReject Instr
  | .stream bytes => decode bytes
  | .completed code packet => decodeCompleted code packet

/-- Bytes an instruction removes from the buffer when it does not wait (R47, column `length`). -/
def Instr.length : Instr → Nat
  | .sync => 6
  | .ovf => 1
  | .hwsrc _ => 1
  | .swit0 _ => 1
  | .swit1 _ => 2
  | .swit2 _ => 3
  | .swit4 _ => 5
  | .decChar _ _ => 0
  | .decU32 _ _ => 0
  | .decI32 _ _ => 0
  | .decF32 _ _ => 0
  | .decQ16 _ _ => 0

/-! ### The opcode table (R63) -/

/-- A packet kind by name, for the table's rows. -/
inductive PacketKind where
  | sync
  | ovf
  | hwsrc
  | swit0
  | swit1
  | swit2
  | swit4
  deriving DecidableEq, Repr

/-- The kind of an instruction that is a packet kind. -/
def Instr.kind? : Instr → Option PacketKind
  | .sync => some .sync
  | .ovf => some .ovf
  | .hwsrc _ => some .hwsrc
  | .swit0 _ => some .swit0
  | .swit1 _ => some .swit1
  | .swit2 _ => some .swit2
  | .swit4 _ => some .swit4
  | .decChar _ _ => none
  | .decU32 _ _ => none
  | .decI32 _ _ => none
  | .decF32 _ _ => none
  | .decQ16 _ _ => none

/-- A row matched over the first buffered byte (format `HDR8`): `h & mask = pattern`. -/
structure HeaderRow where
  kind : PacketKind
  pattern : Byte
  mask : Byte
  priority : Nat
  length : Nat
  payload : Nat
  deriving DecidableEq, Repr

/-- The six `HDR8` rows, in the table's order, which is the order of their priorities. -/
def headerRows : List HeaderRow :=
  [⟨.ovf, 0x70, 0xFF, 2, 1, 0⟩,
   ⟨.hwsrc, 0x04, 0x04, 3, 1, 0⟩,
   ⟨.swit0, 0x00, 0x07, 4, 1, 0⟩,
   ⟨.swit1, 0x01, 0x07, 4, 2, 1⟩,
   ⟨.swit2, 0x02, 0x07, 4, 3, 2⟩,
   ⟨.swit4, 0x03, 0x07, 4, 5, 4⟩]

/-- Whether a row matches a front byte. -/
def HeaderRow.hits (r : HeaderRow) (h : Byte) : Bool := h &&& r.mask == r.pattern

/-! ### Stream forms (R62) -/

/-- The little-endian bytes of a 32-bit pattern: `v[7:0], v[15:8], v[23:16], v[31:24]`. -/
def leBytes (v : Bits32) : List Byte :=
  [v.extractLsb' 0 8, v.extractLsb' 8 8, v.extractLsb' 16 8, v.extractLsb' 24 8]

/-- `SWIT.U32 a, n`, for `0 <= n < 2^32`. -/
def asmU32 (a : Addr) (n : Nat) : List Byte := softwarePacket a (leBytes (BitVec.ofNat 32 n))

/-- `SWIT.I32 a, n`, for `-2^31 <= n < 2^31`. -/
def asmI32 (a : Addr) (n : Int) : List Byte := softwarePacket a (leBytes (BitVec.ofInt 32 n))

/-- `SWIT.Q16 a, r`, `r` the raw integer. -/
def asmQ16 (a : Addr) (r : Int) : List Byte := softwarePacket a (leBytes (BitVec.ofInt 32 r))

/-- `SWIT.F32 a, v`, `v` the binary32 pattern. -/
def asmF32 (a : Addr) (v : Bits32) : List Byte := softwarePacket a (leBytes v)

/-- `SWIT.CH a, c`. -/
def asmCh (a : Addr) (c : Byte) : List Byte := softwarePacket a [c]

/-- `SWIT.CH2 a, c0, c1`. -/
def asmCh2 (a : Addr) (c0 c1 : Byte) : List Byte := softwarePacket a [c0, c1]

/-- `SWIT.CH4 a, c0, c1, c2, c3`. -/
def asmCh4 (a : Addr) (c0 c1 c2 c3 : Byte) : List Byte := softwarePacket a [c0, c1, c2, c3]

/-! ### The opcode table's words as bytes -/

/-- The six bytes that an instruction word of `nbits` bits stands for. A 48-bit word is numbered as R63
numbers the `SYNC` row, `LB[0]` its most significant byte; every other width has the first byte in bits
7:0 and zeros above `nbits` (log 11). -/
def wordBytes (nbits w : Nat) : List Byte :=
  let byteAt := fun k => BitVec.ofNat 8 (w / 256 ^ k)
  let low := [byteAt 0, byteAt 1, byteAt 2, byteAt 3, byteAt 4, byteAt 5]
  if nbits = 48 then low.reverse else low

/-- The completed packet of zeros on port 0 that a type of width `w` accepts, for a `CFG3` word, whose
operands the table gives no bits. -/
def zeroPacket (w : Nat) : List Byte := softwarePacket 0 (List.replicate w 0)

/-- The packet and, for a `CFG3` word (3 bits, R63), the configuration entry that an instruction word stands
for; the packet is as long as its kind (R47). -/
def wordPacket (nbits w : Nat) : Option CfgEntry × List Byte :=
  if nbits < 8 then
    match CfgEntry.ofCode? (BitVec.ofNat 3 w) with
    | some (.type t) => (some (.type t), zeroPacket t.width)
    | some .disabled => (some .disabled, zeroPacket 1)
    | none => (none, zeroPacket 1)
  else
    let bytes := wordBytes nbits w
    match decode bytes with
    | .ok i => (none, bytes.take i.length)
    | .error _ => (none, bytes)

/-- The decoder's answer on an instruction word of the opcode table. -/
def decodeTableWord (nbits w : Nat) : Option Instr :=
  if nbits < 8 then (decodeCompleted (BitVec.ofNat 3 w) (wordPacket nbits w).2).toOption
  else (decode (wordBytes nbits w)).toOption

end Sys2Proof
end

