-- ==== Sys2Proof/Machine/State.lean ====
section
/-! DEFINITION. The decoder's state as plain data (10_state.md), what a step returns (60_exceptions.md R107,
43_typed_values.md R91), the caller's inputs, and the reasons a step can stop. -/

namespace Sys2Proof.Machine

/-- A decoded scalar: a byte, or a 32-bit pattern whose tag says how it is read (R91). -/
inductive TypedValue where
  | char (b : Byte)
  | u32 (p : Bits32)
  | i32 (p : Bits32)
  | f32 (p : Bits32)
  | fixed16_16 (p : Bits32)
  deriving DecidableEq, Repr, Inhabited

/-- The kinds of packet the decoder detects and does not decode (R117, R118). -/
inductive UnsupportedKind where
  | hardwareSource (header : Byte)
  | sync
  deriving DecidableEq, Repr

/-- What a step returns (R107). Not decoder state (R24). -/
inductive DecodeOutcome where
  | decodedValue (port : Addr) (data : List TypedValue)
  | parseBufferOverrun
  | overflow
  | invalidHeaderSize (address : Addr)
  | underfull (address : Addr)
  | unconfiguredPort (address : Addr)
  | sizeMismatch (address : Addr)
  /-- Kept so that the taxonomy is complete; nothing produces it (R90, R116). -/
  | unknown
  | unsupportedPacket (kind : UnsupportedKind)
  deriving DecidableEq, Repr

/-- What the caller presents for one step (00_scope.md R5, R6, R8). -/
inductive Input where
  /-- One stream byte. -/
  | byte (b : Byte)
  /-- `new(config)`: a list meant to hold 32 entries (R127, R130). -/
  | new (config : List CfgEntry)
  /-- `rst` with `cfg_i[95:0]`, the same operation at the signals (R8). -/
  | rst (cfgI : BitVec 96)
  deriving DecidableEq, Repr

/-- The state. `cfg` and `buf` are the spec's whole state of a decoder instance (R14); `input` and `out`
are the model's own ends of the caller's interface (log 3, log 4). -/
structure State where
  /-- `CFG[0..31]` (R15). -/
  cfg : PortConfig
  /-- The occupied slots of `LB` in index order, front first (R17, R18, decision D3; log 2). -/
  buf : List Byte
  /-- What the caller presents next, oldest first (log 3). -/
  input : List Input
  /-- The outcome returned by the last step, if it returned one (log 4). Nothing reads it (R23). -/
  out : Option DecodeOutcome
  deriving DecidableEq, Repr

/-- The fill count: the number of occupied slots (R18). -/
def State.cnt (s : State) : Nat := s.buf.length

/-- The front-alignment invariant in the list reading: at most six occupied slots (R17, R75). -/
def State.wf (s : State) : Bool := decide (s.cnt ≤ Config.lbCap)

/-- The decoder that `new(config)` produces: the configuration as given, every slot empty, no outcome (R27,
R127). `input` is what the caller presents after it. -/
def State.new (config : PortConfig) (input : List Input) : State :=
  { cfg := config, buf := [], input := input, out := none }

/-- The machine right after reset. The spec gives the configuration no default (R128): DESIGN CHOICE all
disabled, log 1; a caller's `new(config)` in `input` sets any other. -/
def State.reset : State := State.new PortConfig.allDisabled []

/-- Reasons to stop with a fault. -/
inductive Fault where
  /-- Raised by `feedByte` when the match finds no packet kind. Safe: no state reaches it, since the match
  runs only after an append (R90); reaching it would be a defect of the model (93_implementation_defined.md U5). -/
  | unmatchedPattern
  deriving DecidableEq, Repr

/-- Reasons to refuse. -/
inductive Refusal where
  /-- Raised by `exec`'s arms for an instruction that has no meaning yet. Safe. No arm raises it now. -/
  | notModelled (mnemonic : String)
  /-- Raised by the packet kinds when fewer bytes are buffered than they remove. Safe: the spec gives `pop`
  no meaning there (93_implementation_defined.md U7), and no step does it. -/
  | popBeyondOccupied
  /-- Raised by `new` on a list that is not 32 entries long. Safe: `new` is not defined there (U6, R65). -/
  | configurationLength
  /-- Raised by `rst` when an entry of `cfg_i` has code 6 or 7. Safe: not a configuration (U6, R60). -/
  | reservedConfigurationCode
  /-- Raised by the numeric projection of a `Char` value. Safe: a contract violation (U2, R102). -/
  | numericProjectionOfChar
  /-- Raised by the byte projection of a numeric value. Safe: a contract violation (U3, R103). -/
  | byteProjectionOfNumeric
  deriving DecidableEq, Repr

end Sys2Proof.Machine
end

