-- ==== Sys2Proof/Machine/Ops.lean ====
section
/-! DEFINITION. The named operations on the buffer, the configuration and the outcome
(40_port_config.md, 41_buffer_controller.md R70 to R72, 00_scope.md R13). -/

namespace Sys2Proof.Machine

/-- What a step answers. -/
abbrev StepResult := Host.Outcome State Fault Refusal

/-! ### The buffer -/

/-- `LB[i]`: the byte in slot `i`, if it is occupied (R13, R17). -/
def State.slot (s : State) (i : Nat) : Option Byte := s.buf[i]?

/-- `APPEND`: the byte goes to the first empty slot, slot `cnt` (R71). -/
def State.append (s : State) (b : Byte) : State := { s with buf := s.buf ++ [b] }

/-- `buf <- l` (R13). -/
def State.setBuf (s : State) (l : List Byte) : State := { s with buf := l }

/-- `pop(p, n)`: take the `n` bytes from slot `p` on and close the gap; `none` where its precondition
`p + n <= cnt` fails, to which the spec gives no meaning (R72, U7). -/
def State.pop (s : State) (p n : Nat) : Option (List Byte × State) :=
  if p + n ≤ s.cnt then
    some ((s.buf.drop p).take n, s.setBuf (s.buf.take p ++ s.buf.drop (p + n)))
  else none

/-- Take `n` bytes from the front and go on with them; refuse beyond the occupied slots. -/
def State.popFront (s : State) (n : Nat) (k : List Byte → State → StepResult) : StepResult :=
  match s.pop 0 n with
  | some (taken, s') => k taken s'
  | none => .refused .popBeyondOccupied

/-! ### Outcomes -/

/-- End the step with an outcome: `raise` and `return` alike (R13). This is the block's whole exception
entry: the outcome is reported, every state write made before it stays, nothing is saved and control
goes nowhere (60_exceptions.md R120); there is no return from it (R121). -/
def State.raise (s : State) (o : DecodeOutcome) : StepResult := .next { s with out := some o }

/-! ### The configuration -/

/-- Entry `a` of a configuration. Every 5-bit address has one (20_memory.md R29). -/
def entryAt (cfg : PortConfig) (a : Addr) : CfgEntry := cfg[a.toNat]'a.isLt

/-- `LOOKUP(a)` (R66). -/
def State.lookup (s : State) (a : Addr) : CfgEntry := entryAt s.cfg a

/-- `CONSTRUCT(config)`: defined on lists of exactly 32 entries (R65, U6). -/
def construct? (config : List CfgEntry) : Option PortConfig :=
  if h : config.length = Config.numPorts then some ⟨⟨config⟩, h⟩ else none

/-- The 32 entries of `cfg_i`, entry `a` at bits `[3a+2:3a]`; `none` if one has a reserved code (R8, R60). -/
def entriesOfBits? (cfgI : BitVec 96) : Option (List CfgEntry) :=
  (List.range Config.numPorts).mapM fun a => CfgEntry.ofCode? (cfgI.extractLsb' (3 * a) 3)

/-- `cfg_i` for a list of entries (R8, R60). -/
def bitsOfEntries (entries : List CfgEntry) : BitVec 96 :=
  entries.foldr (fun e acc => acc <<< 3 ||| e.code.setWidth 96) 0

end Sys2Proof.Machine
end

