-- ==== Sys2Proof/Machine/Operands.lean ====
section
/-! DEFINITION. Operand forms: the payload of a completed packet, its split into chunks, and the little-endian
reading of a chunk as a typed value (20_memory.md R32 to R36, 43_typed_values.md R91 to R99). -/

namespace Sys2Proof.Machine

/-- `le32(b0, b1, b2, b3)`: the byte that arrived first is the least significant (R13, R33). -/
def le32 (c : Chunk4) : Bits32 :=
  c.b0.setWidth 32 ||| c.b1.setWidth 32 <<< 8 ||| c.b2.setWidth 32 <<< 16 ||| c.b3.setWidth 32 <<< 24

/-- `split(pl, w)`: chunk `k` is `pl[k*w .. k*w + w - 1]` (R93). -/
def split (pl : List Byte) (w : Nat) : List (List Byte) :=
  (List.range (pl.length / w)).map fun k => (pl.drop (k * w)).take w

/-- `decode_Char` (R95): the byte as it is. -/
def decodeChar (b : Byte) : TypedValue := .char b

/-- `decode_U32` (R96). -/
def decodeU32 (c : Chunk4) : TypedValue := .u32 (le32 c)

/-- `decode_I32` (R97). -/
def decodeI32 (c : Chunk4) : TypedValue := .i32 (le32 c)

/-- `decode_F32` (R98): the pattern, unchanged. -/
def decodeF32 (c : Chunk4) : TypedValue := .f32 (le32 c)

/-- `decode_Fixed16_16` (R99). -/
def decodeQ16 (c : Chunk4) : TypedValue := .fixed16_16 (le32 c)

/-- `decode_t` on a chunk as a list of bytes; it is defined on chunks of the type's width only (R91, R95
to R99). -/
def decodeChunk? : DecodeType → List Byte → Option TypedValue
  | .char, [b] => some (decodeChar b)
  | .u32, [b0, b1, b2, b3] => some (decodeU32 ⟨b0, b1, b2, b3⟩)
  | .i32, [b0, b1, b2, b3] => some (decodeI32 ⟨b0, b1, b2, b3⟩)
  | .f32, [b0, b1, b2, b3] => some (decodeF32 ⟨b0, b1, b2, b3⟩)
  | .fixed16_16, [b0, b1, b2, b3] => some (decodeQ16 ⟨b0, b1, b2, b3⟩)
  | _, _ => none

/-- The decode type a value is a variant of (R91). -/
def TypedValue.type : TypedValue → DecodeType
  | .char _ => .char
  | .u32 _ => .u32
  | .i32 _ => .i32
  | .f32 _ => .f32
  | .fixed16_16 _ => .fixed16_16

/-- The little-endian byte form of a value (R105). -/
def TypedValue.encode : TypedValue → List Byte
  | .char b => [b]
  | .u32 p => leBytes p
  | .i32 p => leBytes p
  | .f32 p => leBytes p
  | .fixed16_16 p => leBytes p

end Sys2Proof.Machine
end

