-- ==== Sys2Proof/Machine/Flags.lean ====
section
/-! DEFINITION. The decoder has no flags or condition codes (10_state.md R23). What reports the result of a step
is its outcome; this file gives the outcome's code, class and record (30_encoding.md R61, 60_exceptions.md
R107, R108). -/

namespace Sys2Proof.Machine

/-- The outcome code, `out_kind` (R61, R107). -/
def DecodeOutcome.code : DecodeOutcome → BitVec 4
  | .decodedValue _ _ => 0
  | .parseBufferOverrun => 1
  | .overflow => 2
  | .invalidHeaderSize _ => 3
  | .underfull _ => 4
  | .unconfiguredPort _ => 5
  | .sizeMismatch _ => 6
  | .unknown => 7
  | .unsupportedPacket (.hardwareSource _) => 8
  | .unsupportedPacket .sync => 9

/-- The classes of R108, beside the value itself. -/
inductive OutcomeClass where
  | value
  /-- (a) not an error: "need more bytes". -/
  | flowControl
  /-- (b) drops the offending bytes and leaves the decoder ready. -/
  | recoverable
  /-- (c) a defect to fix. -/
  | invariantViolation
  deriving DecidableEq, Repr

/-- The class of an outcome (R107, R108). -/
def DecodeOutcome.cls : DecodeOutcome → OutcomeClass
  | .decodedValue _ _ => .value
  | .parseBufferOverrun => .recoverable
  | .overflow => .recoverable
  | .invalidHeaderSize _ => .recoverable
  | .underfull _ => .flowControl
  | .unconfiguredPort _ => .recoverable
  | .sizeMismatch _ => .recoverable
  | .unknown => .invariantViolation
  | .unsupportedPacket _ => .recoverable

/-- The six fields of the outcome record (R61). -/
structure OutcomeRecord where
  kind : BitVec 4
  addr : BitVec 5
  type : BitVec 3
  n : BitVec 3
  data : BitVec 32
  hdr : BitVec 8
  deriving DecidableEq, Repr

/-- `out_addr`: the port or address, 0 for kinds that carry none (R61). -/
def DecodeOutcome.addrField : DecodeOutcome → BitVec 5
  | .decodedValue port _ => port
  | .invalidHeaderSize a => a
  | .underfull a => a
  | .unconfiguredPort a => a
  | .sizeMismatch a => a
  | .parseBufferOverrun => 0
  | .overflow => 0
  | .unknown => 0
  | .unsupportedPacket _ => 0

/-- The values an outcome carries; only a decoded value carries any (R109). -/
def DecodeOutcome.values : DecodeOutcome → List TypedValue
  | .decodedValue _ data => data
  | .parseBufferOverrun => []
  | .overflow => []
  | .invalidHeaderSize _ => []
  | .underfull _ => []
  | .unconfiguredPort _ => []
  | .sizeMismatch _ => []
  | .unknown => []
  | .unsupportedPacket _ => []

/-- `out_type`: the code of the values' variant, 0 where there are none (R61). -/
def typeField : List TypedValue → BitVec 3
  | [] => 0
  | v :: _ => v.type.code

/-- `out_data`: payload byte `j` in bits `[8j+7:8j]`, the other bits 0 (R61). -/
def dataField (values : List TypedValue) : BitVec 32 :=
  (values.flatMap TypedValue.encode).foldr (fun b acc => acc <<< 8 ||| b.setWidth 32) 0

/-- `out_hdr`: the dropped header of a hardware-source packet (R61). -/
def DecodeOutcome.hdrField : DecodeOutcome → BitVec 8
  | .unsupportedPacket (.hardwareSource h) => h
  | .unsupportedPacket .sync => 0
  | .decodedValue _ _ => 0
  | .parseBufferOverrun => 0
  | .overflow => 0
  | .invalidHeaderSize _ => 0
  | .underfull _ => 0
  | .unconfiguredPort _ => 0
  | .sizeMismatch _ => 0
  | .unknown => 0

/-- The outcome record (R61). -/
def DecodeOutcome.record (o : DecodeOutcome) : OutcomeRecord :=
  { kind := o.code
    addr := o.addrField
    type := typeField o.values
    n := BitVec.ofNat 3 o.values.length
    data := dataField o.values
    hdr := o.hdrField }

end Sys2Proof.Machine
end

