-- ==== Sys2Proof/Machine/TypedValues.lean ====
section
/-! DEFINITION. The reconstruct operations `DEC.*` (43_typed_values.md R95 to R99): each turns every chunk of a
completed packet into one value and ends the step with the decoded value (R85, R109). -/

namespace Sys2Proof.Machine

/-- `return DecodedValue{port, data}` (R85, R109). -/
def State.deliver (s : State) (port : Addr) (data : List TypedValue) : StepResult :=
  s.raise (.decodedValue port data)

/-- `DEC.CHAR` (R95): one lane per byte (R106). -/
def execDecChar (port : Addr) (chunks : List Byte) (s : State) : StepResult :=
  s.deliver port (chunks.map decodeChar)

/-- `DEC.U32` (R96). -/
def execDecU32 (port : Addr) (chunks : List Chunk4) (s : State) : StepResult :=
  s.deliver port (chunks.map decodeU32)

/-- `DEC.I32` (R97). -/
def execDecI32 (port : Addr) (chunks : List Chunk4) (s : State) : StepResult :=
  s.deliver port (chunks.map decodeI32)

/-- `DEC.F32` (R98). -/
def execDecF32 (port : Addr) (chunks : List Chunk4) (s : State) : StepResult :=
  s.deliver port (chunks.map decodeF32)

/-- `DEC.Q16` (R99). -/
def execDecQ16 (port : Addr) (chunks : List Chunk4) (s : State) : StepResult :=
  s.deliver port (chunks.map decodeQ16)

/-- The reconstruct operation that a configured type selects, run on a payload (R63, R85). -/
def reconstruct (t : DecodeType) (port : Addr) (pl : List Byte) (s : State) : StepResult :=
  match t with
  | .char => execDecChar port pl s
  | .u32 => execDecU32 port (chunks4 pl) s
  | .i32 => execDecI32 port (chunks4 pl) s
  | .f32 => execDecF32 port (chunks4 pl) s
  | .fixed16_16 => execDecQ16 port (chunks4 pl) s

end Sys2Proof.Machine
end

