-- ==== Sys2Proof/Machine/Software.lean ====
section
/-! DEFINITION. Software-source packets (42_packet_kinds.md R83 to R89), on the state after the append. -/

namespace Sys2Proof.Machine

/-- The endings of a completed packet once its bytes have left the buffer, tested in the order of R85:
disabled port, size mismatch, value. -/
def interpretPayload (a : Addr) (size : Nat) (pl : List Byte) (s : State) : StepResult :=
  match s.lookup a with
  | .disabled => s.raise (.unconfiguredPort a)
  | .type t =>
    if size % t.width ≠ 0 then s.raise (.sizeMismatch a)
    else reconstruct t a pl s

/-- `COMPLETE(a, size)` (R85): header dropped, payload taken, then the configuration is looked at. -/
def complete (a : Addr) (size : Nat) (s : State) : StepResult :=
  s.popFront 1 fun _ s1 => s1.popFront size fun pl s2 => interpretPayload a size pl s2

/-- A packet with a valid size code: wait while bytes are missing (R89), else complete it. -/
def collect (a : Addr) (size : Nat) (s : State) : StepResult :=
  if s.cnt < 1 + size then s.raise (.underfull a) else complete a size s

/-- `SWIT0` (R84): one byte goes; the configuration is not consulted. -/
def execSwit0 (a : Addr) (s : State) : StepResult :=
  s.popFront 1 fun _ s' => s'.raise (.invalidHeaderSize a)

/-- `SWIT1` (R86). -/
def execSwit1 (a : Addr) (s : State) : StepResult := collect a 1 s

/-- `SWIT2` (R87). -/
def execSwit2 (a : Addr) (s : State) : StepResult := collect a 2 s

/-- `SWIT4` (R88). -/
def execSwit4 (a : Addr) (s : State) : StepResult := collect a 4 s

end Sys2Proof.Machine
end

