-- ==== Sys2Proof/Machine/Special.lean ====
section
/-! DEFINITION. The packet kinds recognised by a whole byte pattern or by bit 2 (42_packet_kinds.md R80 to R82).
Each acts on the state after the append. -/

namespace Sys2Proof.Machine

/-- `SYNC` (R80, decision D7): all six bytes go. -/
def execSync (s : State) : StepResult :=
  s.popFront 6 fun _ s' => s'.raise (.unsupportedPacket .sync)

/-- `OVF` (R81): the front byte goes; nothing is latched. -/
def execOvf (s : State) : StepResult :=
  s.popFront 1 fun _ s' => s'.raise .overflow

/-- `HWSRC` (R82, decision D6): the header alone goes, no payload is framed, the byte is reported whole. -/
def execHwsrc (header : Byte) (s : State) : StepResult :=
  s.popFront 1 fun _ s' => s'.raise (.unsupportedPacket (.hardwareSource header))

end Sys2Proof.Machine
end

