-- ==== Sys2Proof/Machine/Dispatch.lean ====
section
/-! DEFINITION. One arm per instruction. A packet kind acts on the state after the append (R73); a reconstruct
operation acts on the state after its packet has left the buffer (R85). -/

namespace Sys2Proof.Machine

def exec (i : Instr) (s : State) : Host.Outcome State Fault Refusal :=
  match i with
  | .sync => Sys2Proof.Machine.execSync s
  | .ovf => Sys2Proof.Machine.execOvf s
  | .hwsrc header => Sys2Proof.Machine.execHwsrc header s
  | .swit0 addr => Sys2Proof.Machine.execSwit0 addr s
  | .swit1 addr => Sys2Proof.Machine.execSwit1 addr s
  | .swit2 addr => Sys2Proof.Machine.execSwit2 addr s
  | .swit4 addr => Sys2Proof.Machine.execSwit4 addr s
  | .decChar port chunks => Sys2Proof.Machine.execDecChar port chunks s
  | .decU32 port chunks => Sys2Proof.Machine.execDecU32 port chunks s
  | .decI32 port chunks => Sys2Proof.Machine.execDecI32 port chunks s
  | .decF32 port chunks => Sys2Proof.Machine.execDecF32 port chunks s
  | .decQ16 port chunks => Sys2Proof.Machine.execDecQ16 port chunks s

end Sys2Proof.Machine
end

