-- ==== Sys2Proof/Machine/Controller.lean ====
section
/-! DEFINITION. The step, whole (41_buffer_controller.md R70 to R74), reset while running (70_reset_and_hazards.md
R130), and the pause between bytes (60_exceptions.md R125). -/

namespace Sys2Proof.Machine

/-- `OVERRUN` (R70): the held bytes are discarded, the new byte is seeded and not matched. -/
def overrun (b : Byte) (s : State) : StepResult := (s.setBuf [b]).raise .parseBufferOverrun

/-- `MATCH` (R73): made once, on the buffer as it is after the append. -/
def matchAndRun (s : State) : StepResult :=
  match decode s.buf with
  | .ok i => exec i s
  | .error _ => .fault .unmatchedPattern

/-- `step(b)` (R74): overrun at a full buffer, else append and match. A state has at most six occupied slots,
so `cnt < 6` fails exactly when `cnt = 6` (log 2). -/
def feedByte (b : Byte) (s : State) : StepResult :=
  if s.cnt < Config.lbCap then matchAndRun (s.append b) else overrun b s

/-- `new(config)`, at first or again: the state of R127 whatever the old state was, no outcome; what the caller
presents after it stays (R129, R130). -/
def construct (config : List CfgEntry) (s : State) : StepResult :=
  match construct? config with
  | some c => .next (State.new c s.input)
  | none => .refused .configurationLength

/-- `rst` performs `new(cfg_i)` (R8). -/
def constructBits (cfgI : BitVec 96) (s : State) : StepResult :=
  match entriesOfBits? cfgI with
  | some config => construct config s
  | none => .refused .reservedConfigurationCode

/-- No byte is fed: the decoder keeps its whole state (R125) and returns no outcome. -/
def idle (s : State) : StepResult := .next { s with out := none }

/-- Act on one input of the caller. -/
def accept (i : Input) (s : State) : StepResult :=
  match i with
  | .byte b => feedByte b s
  | .new config => construct config s
  | .rst cfgI => constructBits cfgI s

/-- One step: take the caller's next input, if there is one, and act on it. -/
def advance (s : State) : StepResult :=
  match s.input with
  | [] => idle s
  | i :: rest => accept i { s with input := rest }

/-- Place a packet so that the next step completes it: all bytes but the last in the buffer, the last one the
caller's next byte (log 12). -/
def placePacket (packet : List Byte) (s : State) : State :=
  { s with buf := packet.dropLast, input := .byte (packet.getLast?.getD 0) :: s.input }

/-- Give port 0 the entry that a `CFG3` word names; other words leave the configuration alone (log 12). -/
def placeEntry (e : Option CfgEntry) (s : State) : State :=
  match e with
  | some e => { s with cfg := s.cfg.set 0 e }
  | none => s

/-- An instruction word of the opcode table, placed for the next step. -/
def placeWord (nbits w : Nat) (s : State) : State :=
  placePacket (wordPacket nbits w).2 (placeEntry (wordPacket nbits w).1 s)

end Sys2Proof.Machine
end

