-- ==== Sys2Proof/Machine/Step.lean ====
section
/-! DEFINITION. The step, and the placement of an instruction word for it; both are written in
Sys2Proof/Machine/Controller.lean. -/

namespace Sys2Proof.Machine

/-- One step of the machine. -/
def step (s : State) : Host.Outcome State Fault Refusal := advance s

/-- `s` with an instruction word of the opcode table placed so that the next step runs it (log 12). -/
def State.withFetchWord (s : State) (nbits w : Nat) : State := placeWord nbits w s

end Sys2Proof.Machine
end

