-- ==== Sys2Proof/Machine/Phase.lean ====
section
/-! DEFINITION. The phase of the protocol state machine, read off the buffer (10_state.md R21). It is no register. -/

namespace Sys2Proof.Machine

/-- The phases at a step boundary (R21). -/
inductive Phase where
  | idle
  | collecting (port : Addr) (held size : Nat)
  | pending
  deriving DecidableEq, Repr

/-- The phase of a buffer (R21): `collecting a k size` when a software-source header with a valid size code
stands in front and `k < size` payload bytes follow it. -/
def phaseOf : List Byte → Phase
  | [] => .idle
  | h :: pl =>
    if srcOf h = false ∧ ssOf h ≠ 0 ∧ pl.length < payloadSize (ssOf h) then
      .collecting (addrOf h) pl.length (payloadSize (ssOf h))
    else .pending

/-- The phase of a state. -/
def State.phase (s : State) : Phase := phaseOf s.buf

end Sys2Proof.Machine
end

