-- ==== Sys2Proof/Machine/Projections.lean ====
section
/-! DEFINITION. What a typed value stands for, and the projections its consumer applies outside the step
(43_typed_values.md R101 to R104). They read no decoder state. -/

namespace Sys2Proof.Machine

/-- A number a pattern stands for (R101): a rational, the negative zero, an infinity, or not a number. One
element for every not-a-number, as 93_implementation_defined.md U4 allows (log 15). -/
inductive NumValue where
  | finite (q : Rat)
  | negZero
  | infinity (neg : Bool)
  | notANumber
  deriving DecidableEq, Repr

/-- `sext_32(p)`: the two's complement reading (R13, R97; general knowledge G1, PRESUMED, log 14). -/
def sext32 (p : Bits32) : Int :=
  if p.toNat < 2 ^ 31 then (p.toNat : Int) else (p.toNat : Int) - 2 ^ 32

/-- `(-1)^s`. -/
def signFactor (neg : Bool) : Rat := if neg then -1 else 1

/-- The IEEE 754 reading of a sign, a biased exponent `e` and a fraction `f` of `fracBits` bits (R101; general
knowledge G2, PRESUMED, log 14). -/
def ieeeValue (fracBits bias expMax : Nat) (neg : Bool) (e f : Nat) : NumValue :=
  if e = expMax then (if f = 0 then .infinity neg else .notANumber)
  else if e = 0 then
    if f = 0 then (if neg then .negZero else .finite 0)
    else .finite (signFactor neg * (2 : Rat) ^ (1 - (bias : Int)) * ((f : Rat) / (2 : Rat) ^ fracBits))
  else .finite (signFactor neg * (2 : Rat) ^ ((e : Int) - (bias : Int)) * (1 + (f : Rat) / (2 : Rat) ^ fracBits))

/-- The number a binary32 pattern stands for: sign bit 31, exponent bits 30:23, fraction bits 22:0 (R98, R101). -/
def binary32Value (p : Bits32) : NumValue :=
  ieeeValue 23 127 255 p.msb (p.extractLsb' 23 8).toNat (p.extractLsb' 0 23).toNat

/-- The number a binary64 pattern stands for: 11-bit exponent, 52-bit fraction (93_implementation_defined.md G2). -/
def binary64Value (d : BitVec 64) : NumValue :=
  ieeeValue 52 1023 2047 d.msb (d.extractLsb' 52 11).toNat (d.extractLsb' 0 52).toNat

/-- `val(v)`; not defined on a `Char`, which is textual (R101). -/
def TypedValue.val : TypedValue → Option NumValue
  | .char _ => none
  | .u32 p => some (.finite (p.toNat : Rat))
  | .i32 p => some (.finite (sext32 p : Rat))
  | .f32 p => some (binary32Value p)
  | .fixed16_16 p => some (.finite ((sext32 p : Rat) / 65536))

/-- A binary64 pattern from its three fields. -/
def binary64 (neg : Bool) (e : BitVec 11) (f : BitVec 52) : BitVec 64 := BitVec.ofBool neg ++ e ++ f

/-- The binary64 pattern of `(-1)^neg * m * 2^e` for a mantissa below `2^53` and an exponent that keeps it a
normal number or zero, as every use here does (R102): the leading one of `m` is the implicit bit. -/
def binary64Exact (neg : Bool) (m : Nat) (e : Int) : BitVec 64 :=
  if m = 0 then binary64 neg 0 0
  else
    let k := Nat.log2 m
    binary64 neg (BitVec.ofNat 11 ((k : Int) + e + 1023).toNat) (BitVec.ofNat 52 (m * 2 ^ (52 - k)))

/-- A binary64 not-a-number pattern from a free draw: any sign and any nonzero fraction can come out (U4). -/
def binary64NaN (draw : BitVec 53) : BitVec 64 :=
  binary64 draw.msb 2047 (if draw.setWidth 52 = 0 then 1 else draw.setWidth 52)

/-- The binary64 pattern of a binary32 number (R102): exact for numbers, zeros and infinities; a not-a-number
becomes some not-a-number, a free value by call. -/
def binary32To64 (call : Nat) (p : Bits32) : BitVec 64 :=
  let e := (p.extractLsb' 23 8).toNat
  let f := (p.extractLsb' 0 23).toNat
  if e = 255 then (if f = 0 then binary64 p.msb 2047 0 else binary64NaN (Config.nanDraw call))
  else if e = 0 then binary64Exact p.msb f (-149)
  else binary64Exact p.msb (2 ^ 23 + f) ((e : Int) - 150)

/-- The binary64 pattern of an integer over `2^k`, `k` the negated exponent (R102). -/
def intTo64 (i : Int) (e : Int) : BitVec 64 := binary64Exact (decide (i < 0)) i.natAbs e

/-- `num(v)`, the numeric projection, as a binary64 pattern; `call` numbers the consumer's calls and matters to
not-a-number patterns only. A `Char` is refused (R102, U2). -/
def TypedValue.num (call : Nat) : TypedValue → Except Refusal (BitVec 64)
  | .char _ => .error .numericProjectionOfChar
  | .u32 p => .ok (intTo64 (p.toNat : Int) 0)
  | .i32 p => .ok (intTo64 (sext32 p) 0)
  | .f32 p => .ok (binary32To64 call p)
  | .fixed16_16 p => .ok (intTo64 (sext32 p) (-16))

/-- `byte(v)`, the byte projection: a numeric value is refused (R103, U3). -/
def TypedValue.byte : TypedValue → Except Refusal Byte
  | .char b => .ok b
  | .u32 _ => .error .byteProjectionOfNumeric
  | .i32 _ => .error .byteProjectionOfNumeric
  | .f32 _ => .error .byteProjectionOfNumeric
  | .fixed16_16 _ => .error .byteProjectionOfNumeric

/-! ### The textual rendering, a parameter (R104, U10) -/

/-- The number a nonempty list of decimal digits stands for. -/
def digitsValue? (cs : List Char) : Option Nat :=
  if cs = [] then none
  else cs.foldlM (fun acc c => if c.isDigit then some (10 * acc + (c.toNat - 48)) else none) 0

/-- The number a decimal numeral stands for: an optional minus, digits, and optionally a point and digits
(log 17). -/
def numeralValue? (cs : List Char) : Option Rat :=
  let neg := decide (cs.head? = some '-')
  let body := if neg then cs.tail else cs
  match digitsValue? (body.takeWhile (· != '.')), body.dropWhile (· != '.') with
  | none, _ => none
  | some n, [] => some (signFactor neg * (n : Rat))
  | some n, _ :: fraction =>
    (digitsValue? fraction).map fun f => signFactor neg * ((n : Rat) + (f : Rat) / (10 : Rat) ^ fraction.length)

/-- All that is assumed of a rendering: a `Fixed16_16` is shown as a decimal numeral of its scaled value (R104). -/
def LegalRender (render : TypedValue → String) : Prop :=
  ∀ p : Bits32, numeralValue? (render (.fixed16_16 p)).toList = some ((sext32 p : Rat) / 65536)

end Sys2Proof.Machine
end

