-- ==== Sys2Proof/Machine/Signals.lean ====
section
/-! DEFINITION. The signal binding (00_scope.md R8): names and widths over the same step. One clock edge presents
at most one input. -/

namespace Sys2Proof.Machine

/-- The inputs at a rising edge of `clk`. -/
structure InSignals where
  rst : Bool
  cfgI : BitVec 96
  inValid : Bool
  inByte : BitVec 8
  deriving DecidableEq, Repr

/-- The outputs. The record is present only while `out_valid` is high; otherwise it must not be sampled (U9). -/
structure OutSignals where
  inReady : Bool
  outValid : Bool
  record : Option OutcomeRecord
  deriving DecidableEq, Repr

/-- What an edge presents to the decoder: reset while `rst` is high; a byte with `rst` low and `in_valid` high;
otherwise nothing. -/
def InSignals.input (sig : InSignals) : List Input :=
  if sig.rst then [.rst sig.cfgI] else if sig.inValid then [.byte sig.inByte] else []

/-- One rising edge. -/
def clockEdge (sig : InSignals) (s : State) : StepResult := step { s with input := sig.input }

/-- The outputs that report the last step; `in_ready` is constant 1. -/
def State.signals (s : State) : OutSignals :=
  { inReady := true, outValid := s.out.isSome, record := s.out.map DecodeOutcome.record }

/-- The clock period in which the outcome of a byte accepted at period `t` is presented (R8, R9). -/
def presentedAt (t : Nat) : Nat := t + Config.tStep

end Sys2Proof.Machine
end

