-- ==== Sys2Proof/Safety.lean ====
section
/-! DEFINITION. The terms claims use: the buffer shapes reached from reset, runs of several steps with their
outcomes, and what a whole packet is expected to give. -/

namespace Sys2Proof.Machine

/-- The two shapes of the buffer at a step boundary reached from reset: empty, or collecting (41_buffer_controller.md
R77). -/
def State.framed (s : State) : Bool := s.phase != .pending

/-- The decode type of every value in a list is `t`. -/
def allOfType (t : DecodeType) (data : List TypedValue) : Prop := ∀ v ∈ data, v.type = t

/-- `n` steps with the outcomes they return, in order; `none` if one of them stops or returns no outcome. -/
def trace : Nat → State → Option (State × List DecodeOutcome)
  | 0, s => some (s, [])
  | n + 1, s =>
    match step s with
    | .next t =>
      match t.out, trace n t with
      | some o, some (u, os) => some (u, o :: os)
      | _, _ => none
    | .fault _ => none
    | .refused _ => none

/-- A stretch of the stream as the caller's inputs. -/
def bytesIn (bs : List Byte) : List Input := bs.map .byte

/-- The final outcome of a completed packet, from R85's formula with the split of R93. -/
def completionOutcome (e : CfgEntry) (a : Addr) (pl : List Byte) : DecodeOutcome :=
  match e with
  | .disabled => .unconfiguredPort a
  | .type t =>
    if pl.length % t.width ≠ 0 then .sizeMismatch a
    else .decodedValue a ((split pl t.width).filterMap (decodeChunk? t))

/-- A packet of the stream: one of the forms of 30_encoding.md R62 that are packets from an empty buffer. -/
inductive Packet where
  | overflow
  | hardware (header : Byte)
  | invalid (addr : Addr)
  | software (addr : Addr) (payload : List Byte)
  deriving DecidableEq, Repr

/-- The side conditions of R62, and a payload of 1, 2 or 4 bytes (R51). -/
def Packet.ok : Packet → Bool
  | .overflow => true
  | .hardware h => srcOf h
  | .invalid a => a != 14
  | .software _ pl => charCountOk pl.length

/-- The bytes of a packet (R47, R62). -/
def Packet.bytes : Packet → List Byte
  | .overflow => [overflowMarker]
  | .hardware h => [h]
  | .invalid a => [softwareHeader a 0]
  | .software a pl => softwarePacket a pl

/-- The outcomes of a packet fed to an empty buffer, one per byte: a software-source packet gives one `Underfull`
for each byte but the last and then its final outcome (R78). -/
def Packet.outcomes (c : PortConfig) : Packet → List DecodeOutcome
  | .overflow => [.overflow]
  | .hardware h => [.unsupportedPacket (.hardwareSource h)]
  | .invalid a => [.invalidHeaderSize a]
  | .software a pl =>
    List.replicate pl.length (.underfull a) ++ [completionOutcome (entryAt c a) a pl]

/-- The bytes of a sequence of packets, one after another (20_memory.md R37). -/
def streamOf (ps : List Packet) : List Byte := ps.flatMap Packet.bytes

/-- A state with another configuration. -/
def State.withCfg (s : State) (c : PortConfig) : State := { s with cfg := c }

/-- A state in which the previous step returned something else. -/
def State.withOut (s : State) (o : Option DecodeOutcome) : State := { s with out := o }

end Sys2Proof.Machine
end

