-- ==== Sys2Proof/Certificates/Slice0/Obligations.lean ====
section
/-! DEFINITION. The statements for the provers. Rules R<n> in brackets are those of spec/ that a statement formalises or
rests on. Where the spec marks a rule as its own inference ("[derived: ...]"), or a clause is the model's choice, the
docstring says so and names the section of spec/ or the log entry. -/

open Sys2Proof Sys2Proof.Machine

/-! ### Encoding -/

/-- Every well-formed instruction, packet kind or reconstruct operation, is read back from its encoding with
every operand. That a reconstruct operation has an encoding of its own, a configuration code with the completed packet,
is the model's choice (log 9) [R48 to R53]. -/
def Obligations.DecodeOfEncodeIsTheInstruction : Prop :=
  ∀ i : Instr, i.wf = true → decodeEncoding (encode i) = .ok i

/-- Whatever the match finds is well-formed, and its encoding is what stands at the front of the buffer: no bit of a
front byte is dropped or read into a neighbouring kind. The spec's encodings read backwards: the model's inference
from R48 to R53 and R56. -/
def Obligations.DecodedPacketKindEncodesTheFrontBytes : Prop :=
  ∀ (buf : List Byte) (i : Instr), decode buf = .ok i →
    i.wf = true ∧ ∃ front rest, encode i = .stream front ∧ buf = front ++ rest

/-- The opcode map in its priority order, with the fields computed from the byte's number [R56]. -/
def Obligations.MatchFollowsThePriorityOrder : Prop :=
  decode [0x00, 0x00, 0x00, 0x00, 0x00, 0x80] = .ok .sync ∧
  ∀ (h : Byte) (rest : List Byte), h :: rest ≠ [0x00, 0x00, 0x00, 0x00, 0x00, 0x80] →
    decode (h :: rest) =
      .ok (if h.toNat = 0x70 then .ovf
        else if h.toNat / 4 % 2 = 1 then .hwsrc h
        else if h.toNat % 4 = 0 then .swit0 (BitVec.ofNat 5 (h.toNat / 8))
        else if h.toNat % 4 = 1 then .swit1 (BitVec.ofNat 5 (h.toNat / 8))
        else if h.toNat % 4 = 2 then .swit2 (BitVec.ofNat 5 (h.toNat / 8))
        else .swit4 (BitVec.ofNat 5 (h.toNat / 8)))

/-- How many of the 256 front bytes fall into each kind when the `SYNC` test fails: the partition the spec infers at
spec/30_encoding.md section 2 ("1 + 128 + 31 + 32 + 32 + 32 = 256"). -/
def Obligations.FrontBytesPartitionByKind : Prop :=
  let count := fun k : PacketKind =>
    ((List.range 256).filter fun n => decide ((decodeHeader (BitVec.ofNat 8 n)).kind? = some k)).length
  count .ovf = 1 ∧ count .hwsrc = 128 ∧ count .swit0 = 31 ∧ count .swit1 = 32 ∧ count .swit2 = 32 ∧
    count .swit4 = 32

/-- The decoder takes the matching row of smallest priority of the opcode table (the spec's decision D10,
spec/30_encoding.md section 5), and the row's length is the instruction's. -/
def Obligations.DecoderTakesTheFirstMatchingTableRow : Prop :=
  headerRows.Pairwise (fun r q => r.priority ≤ q.priority) ∧
  ∀ h : Byte, ∃ r, headerRows.find? (fun r => r.hits h) = some r ∧
    (decodeHeader h).kind? = some r.kind ∧ (decodeHeader h).length = r.length ∧ r.length = 1 + r.payload

/-- The code table of a configuration entry (the spec's decision D4), the widths, and the two reserved codes
[R60, R67]. -/
def Obligations.ConfigurationCodesNameTheSixEntries : Prop :=
  CfgEntry.disabled.code = 0 ∧ DecodeType.char.code = 1 ∧ DecodeType.u32.code = 2 ∧ DecodeType.i32.code = 3 ∧
  DecodeType.f32.code = 4 ∧ DecodeType.fixed16_16.code = 5 ∧
  DecodeType.char.width = 1 ∧ DecodeType.u32.width = 4 ∧ DecodeType.i32.width = 4 ∧ DecodeType.f32.width = 4 ∧
  DecodeType.fixed16_16.width = 4 ∧
  (∀ e : CfgEntry, CfgEntry.ofCode? e.code = some e) ∧
  ∀ c : BitVec 3, CfgEntry.ofCode? c = none ↔ 6 ≤ c.toNat

/-- A few encodings, written out from the spec's examples, decode to the instructions they stand for
[R48, R53]; the pairing of a configuration code with a packet is log 9. -/
def Obligations.SampleWordsDecode : Prop :=
  decode [0x00, 0x00, 0x00, 0x00, 0x00, 0x80] = .ok .sync ∧
  decode [0x70] = .ok .ovf ∧ decode [0x17] = .ok (.hwsrc 0x17) ∧ decode [0x08] = .ok (.swit0 1) ∧
  decode [0x11] = .ok (.swit1 2) ∧ decode [0xFA] = .ok (.swit2 31) ∧ decode [0x0B] = .ok (.swit4 1) ∧
  decodeCompleted 1 [0x12, 0x48, 0x69] = .ok (.decChar 2 [0x48, 0x69]) ∧
  decodeCompleted 2 [0x03, 0x2A, 0x00, 0x00, 0x00] = .ok (.decU32 0 [⟨0x2A, 0x00, 0x00, 0x00⟩]) ∧
  decodeCompleted 3 [0x0B, 0xD6, 0xFF, 0xFF, 0xFF] = .ok (.decI32 1 [⟨0xD6, 0xFF, 0xFF, 0xFF⟩]) ∧
  decodeCompleted 4 [0x2B, 0x00, 0x00, 0xC0, 0x7F] = .ok (.decF32 5 [⟨0x00, 0x00, 0xC0, 0x7F⟩]) ∧
  decodeCompleted 5 [0xFB, 0x00, 0x80, 0xFF, 0xFF] = .ok (.decQ16 31 [⟨0x00, 0x80, 0xFF, 0xFF⟩])

/-! ### The step -/

/-- When the buffer is not full and the match on it with the new byte finds an instruction, the step is that
instruction on the state after the append; the step takes the byte from the caller's inputs (log 3) [R71, R73]. -/
def Obligations.StepRunsTheDecodedInstruction : Prop :=
  ∀ (s : State) (b : Byte) (rest : List Input) (i : Instr),
    s.input = .byte b :: rest → s.cnt < 6 → decode (s.buf ++ [b]) = .ok i →
    step s = exec i { s with buf := s.buf ++ [b], input := rest }

/-- A byte at a full buffer discards the six held bytes and stays in slot 0, not matched in this step whatever
it is [R70]. -/
def Obligations.OverrunKeepsOnlyTheNewByte : Prop :=
  ∀ (s : State) (b : Byte) (rest : List Input), s.input = .byte b :: rest → s.cnt = 6 →
    step s = .next { s with buf := [b], input := rest, out := some .parseBufferOverrun }

/-- Every byte fed to any buffer of at most six bytes is consumed with exactly one outcome; no such step stops, none
writes the configuration, and the buffer stays within six bytes [R69]. That the outcome is not `Unknown` is the spec's
own inference (spec/42_packet_kinds.md section 3: "So no state and no byte reaches `Unknown`"). -/
def Obligations.EveryByteGivesOneOutcome : Prop :=
  ∀ (s : State) (b : Byte) (rest : List Input), s.input = .byte b :: rest → s.cnt ≤ 6 →
    ∃ t o, step s = .next t ∧ t.out = some o ∧ o ≠ .unknown ∧ t.input = rest ∧ t.cfg = s.cfg ∧ t.cnt ≤ 6

/-- After a byte the buffer holds at most five bytes: the spec's own inference (spec/41_buffer_controller.md section 5:
"every step ends with `cnt <= 5`"). -/
def Obligations.BufferHoldsAtMostFiveAfterAByte : Prop :=
  ∀ (s t : State) (b : Byte) (rest : List Input), s.input = .byte b :: rest → s.cnt ≤ 6 →
    step s = .next t → t.cnt ≤ 5

/-- The capacity invariant: no step leaves more than six occupied slots. The spec infers it at
spec/41_buffer_controller.md section 5 for a byte's step; it holds of the model's other steps too (log 3). -/
def Obligations.StepKeepsTheBufferWithinCapacity : Prop :=
  ∀ s t : State, s.wf = true → step s = .next t → t.wf = true

/-- The two buffer shapes, empty or collecting one software-source packet, are kept by every step: the induction that
the spec gives as its own inference at spec/41_buffer_controller.md section 5 ("States reached from reset"). -/
def Obligations.StepKeepsTheBufferFramed : Prop :=
  ∀ s t : State, s.framed = true → step s = .next t → t.framed = true

/-- A constructed decoder has an empty buffer whatever its configuration (the spec's decision D9,
spec/70_reset_and_hazards.md section 1), so both invariants hold at reset; so they do at `State.reset`, whose
configuration is the model's choice (log 1). -/
def Obligations.ConstructedDecoderIsEmptyAndFramed : Prop :=
  (∀ (c : PortConfig) (input : List Input), (State.new c input).cfg = c ∧ (State.new c input).cnt = 0 ∧
    (∀ i, (State.new c input).slot i = none) ∧ (State.new c input).out = none ∧
    (State.new c input).wf = true ∧ (State.new c input).framed = true) ∧
  State.reset.wf = true ∧ State.reset.framed = true

/-- In the two buffer shapes at most four bytes are buffered: the spec's own inference
(spec/41_buffer_controller.md section 5: "So `cnt <= 4` at every step boundary"). -/
def Obligations.FramedBufferHoldsAtMostFour : Prop :=
  ∀ s : State, s.framed = true → s.cnt ≤ 4

/-- From the two buffer shapes no step reports an overrun, a synchronisation frame or `Unknown`: consequences the
spec infers at spec/41_buffer_controller.md section 5 ("`ParseBufferOverrun` is never produced"). -/
def Obligations.FramedStepReportsNoOverrunNorSync : Prop :=
  ∀ s t : State, s.framed = true → step s = .next t →
    t.out ≠ some .parseBufferOverrun ∧ t.out ≠ some (.unsupportedPacket .sync) ∧ t.out ≠ some .unknown

/-- An invalid header is never reported for port 14, from any state: the spec's own inference
(spec/30_encoding.md section 2: "`InvalidHeaderSize` is never reported with `address = 14`"). -/
def Obligations.InvalidHeaderNeverNamesPortFourteen : Prop :=
  ∀ (s t : State) (a : Addr), step s = .next t → t.out = some (.invalidHeaderSize a) → a ≠ 14

/-- The outcome of a byte is the first in the order of R119 whose condition holds, with every field; the conditions
are computed from the buffer after the append [R119]. -/
def Obligations.OutcomesFollowThePriorityOrder : Prop :=
  ∀ (s t : State) (b h : Byte) (tail : List Byte) (rest : List Input),
    s.input = .byte b :: rest → s.cnt ≤ 6 → s.buf ++ [b] = h :: tail → step s = .next t →
    let a := BitVec.ofNat 5 (h.toNat / 8)
    let size := if h.toNat % 4 = 1 then 1 else if h.toNat % 4 = 2 then 2 else 4
    t.out = some (
      if s.cnt = 6 then .parseBufferOverrun
      else if h :: tail = [0x00, 0x00, 0x00, 0x00, 0x00, 0x80] then .unsupportedPacket .sync
      else if h = 0x70 then .overflow
      else if h.toNat / 4 % 2 = 1 then .unsupportedPacket (.hardwareSource h)
      else if h.toNat % 4 = 0 then .invalidHeaderSize a
      else if s.cnt + 1 < 1 + size then .underfull a
      else completionOutcome (s.lookup a) a (tail.take size))

/-- Bytes removed and fill count after, per outcome, and which bytes stay: the table the spec infers at
spec/41_buffer_controller.md section 5 ("Bytes removed and fill count after, per outcome"). -/
def Obligations.BytesRemovedPerOutcome : Prop :=
  ∀ (s t : State) (b : Byte) (rest : List Input), s.input = .byte b :: rest → s.cnt ≤ 6 → step s = .next t →
    match t.out with
    | none => False
    | some .unknown => False
    | some .parseBufferOverrun => s.cnt = 6 ∧ t.buf = [b] ∧ t.cnt = 1
    | some (.unsupportedPacket .sync) => s.cnt = 5 ∧ t.buf = [] ∧ t.cnt = 0
    | some .overflow => s.cnt ≤ 5 ∧ t.buf = (s.buf ++ [b]).drop 1 ∧ t.cnt = s.cnt
    | some (.unsupportedPacket (.hardwareSource _)) =>
      s.cnt ≤ 5 ∧ t.buf = (s.buf ++ [b]).drop 1 ∧ t.cnt = s.cnt
    | some (.invalidHeaderSize _) => s.cnt ≤ 5 ∧ t.buf = (s.buf ++ [b]).drop 1 ∧ t.cnt = s.cnt
    | some (.underfull _) => s.cnt ≤ 3 ∧ t.buf = s.buf ++ [b] ∧ t.cnt = s.cnt + 1
    | some (.unconfiguredPort _) | some (.sizeMismatch _) | some (.decodedValue _ _) =>
      ∃ h, (s.buf ++ [b]).head? = some h ∧
        let size := payloadSize (ssOf h)
        (size = 1 ∨ size = 2 ∨ size = 4) ∧ size ≤ s.cnt ∧
        t.buf = (s.buf ++ [b]).drop (1 + size) ∧ t.cnt = s.cnt - size

/-- Every decoded value has 1, 2 or 4 values, all of the type configured for its port: 1, 2 or 4 of them for
`Char`, one for the other types. The counts are the spec's own inference (spec/43_typed_values.md section 2: "So `n`
is 1, 2 or 4, never 0 and never 3"). -/
def Obligations.DecodedValuesHaveTheConfiguredType : Prop :=
  ∀ (s t : State) (port : Addr) (data : List TypedValue),
    step s = .next t → t.out = some (.decodedValue port data) →
    ∃ ty, s.lookup port = .type ty ∧ allOfType ty data ∧
      (ty = .char → data.length = 1 ∨ data.length = 2 ∨ data.length = 4) ∧
      (ty ≠ .char → data.length = 1)

/-- With no byte fed the decoder keeps its configuration and buffer for as long as the pause lasts. That the model
takes a step for a pause, and that such a step returns no outcome, are the model's choices (logs 3 and 4)
(spec/60_exceptions.md section 4). -/
def Obligations.PauseKeepsTheWholeState : Prop :=
  ∀ s : State, s.input = [] → step s = .next { s with out := none }

/-- A step does not depend on what the previous step returned: the outcome is not retained (spec/10_state.md section 4);
that the model shows it in a field is its own choice (log 4). -/
def Obligations.PreviousOutcomeIsNotRead : Prop :=
  ∀ (s : State) (o : Option DecodeOutcome), step (s.withOut o) = step s

/-- A byte's step reads no configuration entry but the one of the front header's port: with any other configuration
that agrees there, it reports the same outcome and leaves the same buffer. The spec's own inference
(spec/10_state.md section 5: "reads `CFG[a]` for the one address `a` of the completed packet and reads no other
entry"). -/
def Obligations.StepReadsOnlyTheAddressedEntry : Prop :=
  ∀ (s t : State) (c : PortConfig) (b h : Byte) (rest : List Input), s.input = .byte b :: rest → s.cnt ≤ 6 →
    (s.buf ++ [b]).head? = some h → entryAt c (addrOf h) = s.lookup (addrOf h) → step s = .next t →
    step (s.withCfg c) = .next (t.withCfg c)

/-! ### Construction and reset -/

/-- `new(config)` at any step boundary gives the state of R127 for that configuration, drops the buffered bytes
without an outcome, and leaves the caller's later inputs [R130, the spec's decision D9]. -/
def Obligations.ConstructionLoadsTheConfiguration : Prop :=
  ∀ (s : State) (config : List CfgEntry) (rest : List Input),
    s.input = .new config :: rest → config.length = 32 →
    ∃ t, step s = .next t ∧ (∀ a : Addr, some (t.lookup a) = config[a.toNat]?) ∧
      t.buf = [] ∧ t.cnt = 0 ∧ t.out = none ∧ t.input = rest

/-- `rst` performs `new(cfg_i)`, entry `a` at bits `[3a+2:3a]` (spec/00_scope.md section 3, decisions D1 and D4). -/
def Obligations.SignalResetLoadsEveryEntry : Prop :=
  ∀ (s : State) (cfgI : BitVec 96) (rest : List Input), s.input = .rst cfgI :: rest →
    (∀ a : Addr, (cfgI.extractLsb' (3 * a.toNat) 3).toNat < 6) →
    ∃ t, step s = .next t ∧ (∀ a : Addr, (t.lookup a).code = cfgI.extractLsb' (3 * a.toNat) 3) ∧
      t.buf = [] ∧ t.out = none ∧ t.input = rest

/-- `cfg_i` of a configuration is read back as that configuration (the model's inference from
spec/40_port_config.md, the encoding of `CONSTRUCT`, and decision D4). -/
def Obligations.ConfigurationBitsRoundTrip : Prop :=
  ∀ entries : List CfgEntry, entries.length = 32 → entriesOfBits? (bitsOfEntries entries) = some entries

/-- What is no configuration is refused: a list of another length, or a reserved code in an entry
(spec/93_implementation_defined.md U6, decision D17). -/
def Obligations.MalformedConfigurationIsRefused : Prop :=
  (∀ (s : State) (config : List CfgEntry) (rest : List Input), s.input = .new config :: rest →
    config.length ≠ 32 → step s = .refused .configurationLength) ∧
  ∀ (s : State) (cfgI : BitVec 96) (rest : List Input) (a : Addr), s.input = .rst cfgI :: rest →
    6 ≤ (cfgI.extractLsb' (3 * a.toNat) 3).toNat → step s = .refused .reservedConfigurationCode

/-! ### Buffer operations -/

/-- `pop(p, n)` slot by slot: the taken bytes are slots `p` to `p+n-1`, slots below `p` stay, slot `i` takes what slot
`i+n` held, and `n` fewer are occupied; nothing else changes [R72]. Beyond the occupied slots, to which the spec gives
no meaning, the model has no result: the model's choice (spec/93_implementation_defined.md U7, log 5). -/
def Obligations.PopShiftsTheSlots : Prop :=
  ∀ (s : State) (p n : Nat),
    (p + n ≤ s.cnt → ∃ taken t, s.pop p n = some (taken, t) ∧
      taken.length = n ∧ (∀ j, j < n → taken[j]? = s.slot (p + j)) ∧
      (∀ j, j < p → t.slot j = s.slot j) ∧ (∀ j, p ≤ j → t.slot j = s.slot (j + n)) ∧
      t.cnt = s.cnt - n ∧ t.cfg = s.cfg ∧ t.input = s.input ∧ t.out = s.out) ∧
    (s.cnt < p + n → s.pop p n = none)

/-- `APPEND` writes slot `cnt`, the first empty one, and no other; at a buffer with room the front slot is occupied
after it and at most six are [R71]. -/
def Obligations.AppendFillsTheFirstEmptySlot : Prop :=
  ∀ (s : State) (b : Byte), (s.append b).slot s.cnt = some b ∧ (s.append b).cnt = s.cnt + 1 ∧
    (∀ j, j ≠ s.cnt → (s.append b).slot j = s.slot j) ∧
    (s.append b).cfg = s.cfg ∧ (s.append b).input = s.input ∧ (s.append b).out = s.out ∧ s.slot s.cnt = none ∧
    (s.cnt < 6 → 1 ≤ (s.append b).cnt ∧ (s.append b).cnt ≤ 6 ∧ ((s.append b).slot 0).isSome)

/-! ### Packet kinds -/

/-- What every instruction leaves unchanged when it answers a next state: the configuration and the caller's inputs
always; the buffer but for the bytes its kind removes from the front (`SYNC` 6; `OVF`, `HWSRC`, `SWIT0` 1; `SWIT1` 2,
`SWIT2` 3, `SWIT4` 5; the reconstruct operations none), and all of the buffer where it waits. The decoder has no
memory, no flags and no other register (spec/10_state.md sections 1 and 4, spec/20_memory.md section 1,
spec/60_exceptions.md section 3; the widths moved are the spec's own inference, spec/20_memory.md section 4). -/
def Obligations.InstructionFrame : Prop :=
  ∀ (i : Instr) (s t : State), exec i s = .next t →
    t.cfg = s.cfg ∧ t.input = s.input ∧ ∃ o, t.out = some o ∧ o ≠ .unknown ∧ o ≠ .parseBufferOverrun ∧
      ((∃ a, o = .underfull a ∧ t.buf = s.buf) ∨
       ((∀ a, o ≠ .underfull a) ∧ i.length ≤ s.cnt ∧ t.buf = s.buf.drop i.length))

/-- `SYNC` on a full buffer empties it and reports `UnsupportedPacket{Sync}`; its worked example as a step [R80, the
spec's decision D7]. -/
def Obligations.SyncEmptiesTheBuffer : Prop :=
  (∀ s : State, s.cnt = 6 →
    exec .sync s = .next { s with buf := [], out := some (.unsupportedPacket .sync) }) ∧
  ∀ (s : State) (rest : List Input), s.buf = [0x00, 0x00, 0x00, 0x00, 0x00] → s.input = .byte 0x80 :: rest →
    step s = .next { s with buf := [], input := rest, out := some (.unsupportedPacket .sync) }

/-- `OVF` removes the front byte and reports `Overflow`; from an empty buffer the marker leaves no occupied slot
[R81]. -/
def Obligations.OverflowMarkerRemovesOneByte : Prop :=
  (∀ (s : State) (h : Byte) (tail : List Byte), s.buf = h :: tail →
    exec .ovf s = .next { s with buf := tail, out := some .overflow }) ∧
  ∀ (s : State) (rest : List Input), s.buf = [] → s.input = .byte 0x70 :: rest →
    step s = .next { s with input := rest, out := some .overflow }

/-- `HWSRC` removes the header alone, whatever its bits 7:3 and 1:0, and reports it whole [R82, the spec's decision
D6]. -/
def Obligations.HardwareSourceHeaderRemovesOneByte : Prop :=
  (∀ (s : State) (h : Byte) (tail : List Byte), s.buf = h :: tail →
    exec (.hwsrc h) s = .next { s with buf := tail, out := some (.unsupportedPacket (.hardwareSource h)) }) ∧
  ∀ (s : State) (b h : Byte) (tail : List Byte) (rest : List Input), s.input = .byte b :: rest → s.cnt < 6 →
    s.buf ++ [b] = h :: tail → h.getLsbD 2 = true →
    step s = .next { s with buf := tail, input := rest, out := some (.unsupportedPacket (.hardwareSource h)) }

/-- `SWIT0` removes the header and reports its address, for a configured port as for a disabled one [R84]. -/
def Obligations.InvalidHeaderRemovesOneByte : Prop :=
  ∀ (s : State) (a : Addr) (h : Byte) (tail : List Byte), s.buf = h :: tail →
    exec (.swit0 a) s = .next { s with buf := tail, out := some (.invalidHeaderSize a) }

/-- A software-source header with a valid size code waits while bytes are missing, re-read by every step: the byte is
kept, nothing is removed, the configuration is not consulted, and the header's address is reported [R89, R113]. -/
def Obligations.IncompletePacketWaits : Prop :=
  ∀ (s : State) (b h : Byte) (tail : List Byte) (rest : List Input), s.input = .byte b :: rest →
    s.buf ++ [b] = h :: tail → h.toNat / 4 % 2 = 0 → h.toNat % 4 ≠ 0 →
    s.cnt + 1 < 1 + (if h.toNat % 4 = 1 then 1 else if h.toNat % 4 = 2 then 2 else 4) →
    step s = .next { s with
      buf := h :: tail
      input := rest
      out := some (.underfull (BitVec.ofNat 5 (h.toNat / 8))) }

/-- `SWIT1` waits with the header alone and leaves the buffer as it is; complete, its two bytes go, and it gives a value
on a `Char` port only [R86]. -/
def Obligations.OneBytePacketCompletes : Prop :=
  (∀ (s : State) (a : Addr), s.cnt < 2 → exec (.swit1 a) s = .next { s with out := some (.underfull a) }) ∧
  ∀ (s : State) (a : Addr) (h p0 : Byte) (tail : List Byte), s.buf = h :: p0 :: tail →
    exec (.swit1 a) s = .next { s with
      buf := tail
      out := some (match s.lookup a with
        | .disabled => .unconfiguredPort a
        | .type .char => .decodedValue a [.char p0]
        | .type _ => .sizeMismatch a) }

/-- `SWIT2` waits with fewer than three bytes and leaves the buffer as it is; complete, its three bytes go, and it gives
two values on a `Char` port only [R87]. -/
def Obligations.TwoBytePacketCompletes : Prop :=
  (∀ (s : State) (a : Addr), s.cnt < 3 → exec (.swit2 a) s = .next { s with out := some (.underfull a) }) ∧
  ∀ (s : State) (a : Addr) (h p0 p1 : Byte) (tail : List Byte), s.buf = h :: p0 :: p1 :: tail →
    exec (.swit2 a) s = .next { s with
      buf := tail
      out := some (match s.lookup a with
        | .disabled => .unconfiguredPort a
        | .type .char => .decodedValue a [.char p0, .char p1]
        | .type _ => .sizeMismatch a) }

/-- `SWIT4` waits with fewer than five bytes and leaves the buffer as it is; complete, its five bytes go, and it gives
four `Char` values, or one value of a 4-byte type whose pattern is the payload read little-endian; never a size
mismatch [R88]. -/
def Obligations.FourBytePacketCompletes : Prop :=
  (∀ (s : State) (a : Addr), s.cnt < 5 → exec (.swit4 a) s = .next { s with out := some (.underfull a) }) ∧
  ∀ (s : State) (a : Addr) (h p0 p1 p2 p3 : Byte) (tail : List Byte), s.buf = h :: p0 :: p1 :: p2 :: p3 :: tail →
    let p : Bits32 := BitVec.ofNat 32 (p0.toNat + 256 * p1.toNat + 65536 * p2.toNat + 16777216 * p3.toNat)
    exec (.swit4 a) s = .next { s with
      buf := tail
      out := some (match s.lookup a with
        | .disabled => .unconfiguredPort a
        | .type .char => .decodedValue a [.char p0, .char p1, .char p2, .char p3]
        | .type .u32 => .decodedValue a [.u32 p]
        | .type .i32 => .decodedValue a [.i32 p]
        | .type .f32 => .decodedValue a [.f32 p]
        | .type .fixed16_16 => .decodedValue a [.fixed16_16 p]) }

/-- A completed packet on a configured port of fitting width ends in the reconstruct operation that the port's type
selects, run on the state its bytes have left (spec/42_packet_kinds.md section 2, spec/30_encoding.md section 4; the
reconstruct operations as instructions of their own are log 9). -/
def Obligations.CompletionRunsTheSelectedReconstruction : Prop :=
  ∀ (s : State) (a : Addr) (t : DecodeType) (h : Byte) (pl tail : List Byte), s.buf = h :: (pl ++ tail) →
    s.lookup a = .type t → pl.length % t.width = 0 →
    (pl.length = 1 → exec (.swit1 a) s = exec (selectDec t a pl) { s with buf := tail }) ∧
    (pl.length = 2 → exec (.swit2 a) s = exec (selectDec t a pl) { s with buf := tail }) ∧
    (pl.length = 4 → exec (.swit4 a) s = exec (selectDec t a pl) { s with buf := tail })

/-! ### Typed values -/

/-- `DEC.CHAR`: one `Char` per byte, in arrival order, the byte as it is [R95]; nothing else changes. That the operation
is an instruction which reports `DecodedValue` is the model's choice (log 9). -/
def Obligations.CharReconstructionKeepsTheBytes : Prop :=
  ∀ (s : State) (port : Addr) (chunks : List Byte),
    ∃ data, exec (.decChar port chunks) s = .next { s with out := some (.decodedValue port data) } ∧
      data.length = chunks.length ∧ ∀ (k : Nat) (b : Byte), chunks[k]? = some b → data[k]? = some (.char b)

/-- `DEC.U32`: the value is `c0 + 256*c1 + 65536*c2 + 16777216*c3`, unsigned [R96]; nothing else changes.
That the operation is an instruction which reports `DecodedValue` is the model's choice (log 9). -/
def Obligations.UnsignedReconstructionIsLittleEndian : Prop :=
  ∀ (s : State) (port : Addr) (c : Chunk4), ∃ p : Bits32,
    exec (.decU32 port [c]) s = .next { s with out := some (.decodedValue port [.u32 p]) } ∧
    p.toNat = c.b0.toNat + 256 * c.b1.toNat + 65536 * c.b2.toNat + 16777216 * c.b3.toNat ∧
    (TypedValue.u32 p).val = some (.finite (p.toNat : Rat))

/-- `DEC.I32`: the same pattern read as two's complement; nothing else changes. That the signed reading is two's
complement is the spec's own addition from general knowledge (spec/93_implementation_defined.md G1, log 14), at
spec/43_typed_values.md section 3. That the operation is an instruction which reports `DecodedValue` is the model's
choice (log 9). -/
def Obligations.SignedReconstructionIsTwosComplement : Prop :=
  ∀ (s : State) (port : Addr) (c : Chunk4), ∃ p : Bits32,
    exec (.decI32 port [c]) s = .next { s with out := some (.decodedValue port [.i32 p]) } ∧
    p.toNat = c.b0.toNat + 256 * c.b1.toNat + 65536 * c.b2.toNat + 16777216 * c.b3.toNat ∧
    (TypedValue.i32 p).val =
      some (.finite (if p.toNat < 2147483648 then (p.toNat : Rat) else (p.toNat : Rat) - 4294967296))

/-- `DEC.F32`: the four bytes as one 32-bit pattern, bit 31 from the last byte, unchanged for every pattern [R98];
nothing else changes. That the operation is an instruction which reports `DecodedValue` is the model's choice
(log 9). -/
def Obligations.FloatReconstructionKeepsThePattern : Prop :=
  ∀ (s : State) (port : Addr) (c : Chunk4),
    exec (.decF32 port [c]) s =
      .next { s with out := some (.decodedValue port [.f32 (c.b3 ++ c.b2 ++ c.b1 ++ c.b0)]) }

/-- `DEC.Q16`: the signed pattern with an implicit scale of `2^16` (spec/43_typed_values.md section 3; two's complement
as in log 14); nothing else changes. That the operation is an instruction which reports `DecodedValue` is the model's
choice (log 9). -/
def Obligations.FixedPointReconstructionIsScaled : Prop :=
  ∀ (s : State) (port : Addr) (c : Chunk4), ∃ p : Bits32,
    exec (.decQ16 port [c]) s = .next { s with out := some (.decodedValue port [.fixed16_16 p]) } ∧
    p.toNat = c.b0.toNat + 256 * c.b1.toNat + 65536 * c.b2.toNat + 16777216 * c.b3.toNat ∧
    (TypedValue.fixed16_16 p).val =
      some (.finite ((if p.toNat < 2147483648 then (p.toNat : Rat) else (p.toNat : Rat) - 4294967296) / 65536))

/-- The split of R93: chunks of the width, in arrival order, that together use every payload byte once [R93]. -/
def Obligations.SplitUsesEveryPayloadByteOnce : Prop :=
  ∀ (pl : List Byte) (w : Nat), 0 < w → pl.length % w = 0 →
    (split pl w).length = pl.length / w ∧ (split pl w).flatten = pl ∧ ∀ c ∈ split pl w, c.length = w

/-- Decoding is a bijection between chunks of a type's width and values of its variant: the spec's own inference
(spec/43_typed_values.md section 5). -/
def Obligations.ValueRoundTrip : Prop :=
  (∀ v : TypedValue, decodeChunk? v.type v.encode = some v) ∧
  ∀ (t : DecodeType) (c : List Byte), (c.length = t.width → ∃ v, decodeChunk? t c = some v) ∧
    ∀ v, decodeChunk? t c = some v → v.type = t ∧ v.encode = c ∧ c.length = t.width

/-- The numeric projection is exact on every pattern of every numeric variant: the binary64 pattern it gives reads
as the number the value stands for, a signed zero keeps its sign, and a not-a-number gives some not-a-number
whatever the free draw is. The IEEE 754 readings are the spec's own additions from general knowledge
(spec/93_implementation_defined.md G2, log 14), at spec/43_typed_values.md section 5 (decision D13); the free draw is
log 13, the one not-a-number log 15. -/
def Obligations.NumericProjectionIsExact : Prop :=
  ∀ (v : TypedValue) (call : Nat) (x : NumValue), v.val = some x →
    ∃ d, v.num call = .ok d ∧ binary64Value d = x

/-- Every binary64 not-a-number is some free draw's, and a draw gives nothing else: the projection of a not-a-number
is constrained no further (spec/93_implementation_defined.md U4, log 13). -/
def Obligations.NotANumberDrawIsUnconstrained : Prop :=
  (∀ draw, binary64Value (binary64NaN draw) = .notANumber) ∧
  ∀ d : BitVec 64, binary64Value d = .notANumber → ∃ draw, binary64NaN draw = d

/-- The byte projection gives a `Char`'s byte and is refused on a numeric value [R103]; the numeric projection is
refused on a `Char` [R102], for which `val` is not defined [R101]. The named refusals are the model's choice, following
decision D14 (log 19). -/
def Obligations.ProjectionsRefuseTheWrongVariant : Prop :=
  (∀ (b : Byte) (call : Nat), (TypedValue.char b).num call = .error .numericProjectionOfChar ∧
    (TypedValue.char b).val = none ∧ (TypedValue.char b).byte = .ok b) ∧
  ∀ v : TypedValue, v.type ≠ .char → v.byte = .error .byteProjectionOfNumeric

/-! ### Outcomes -/

/-- The outcome codes (the spec's decision D5) and classes of the taxonomy (spec/60_exceptions.md section 1). -/
def Obligations.OutcomeCodesAndClasses : Prop :=
  ∀ (a : Addr) (h : Byte) (data : List TypedValue),
    ((DecodeOutcome.decodedValue a data).code.toNat = 0 ∧ (DecodeOutcome.decodedValue a data).cls = .value) ∧
    (DecodeOutcome.parseBufferOverrun.code.toNat = 1 ∧ DecodeOutcome.parseBufferOverrun.cls = .recoverable) ∧
    (DecodeOutcome.overflow.code.toNat = 2 ∧ DecodeOutcome.overflow.cls = .recoverable) ∧
    ((DecodeOutcome.invalidHeaderSize a).code.toNat = 3 ∧ (DecodeOutcome.invalidHeaderSize a).cls = .recoverable) ∧
    ((DecodeOutcome.underfull a).code.toNat = 4 ∧ (DecodeOutcome.underfull a).cls = .flowControl) ∧
    ((DecodeOutcome.unconfiguredPort a).code.toNat = 5 ∧ (DecodeOutcome.unconfiguredPort a).cls = .recoverable) ∧
    ((DecodeOutcome.sizeMismatch a).code.toNat = 6 ∧ (DecodeOutcome.sizeMismatch a).cls = .recoverable) ∧
    (DecodeOutcome.unknown.code.toNat = 7 ∧ DecodeOutcome.unknown.cls = .invariantViolation) ∧
    ((DecodeOutcome.unsupportedPacket (.hardwareSource h)).code.toNat = 8 ∧
      (DecodeOutcome.unsupportedPacket (.hardwareSource h)).cls = .recoverable) ∧
    ((DecodeOutcome.unsupportedPacket .sync).code.toNat = 9 ∧
      (DecodeOutcome.unsupportedPacket .sync).cls = .recoverable)

/-- The record of a decoded packet: kind 0, the port, the type's code, the number of values, payload byte `j` in bits
`[8j+7:8j]` and zeros above, header field 0 (spec/30_encoding.md section 4, decision D5). -/
def Obligations.RecordCarriesThePayload : Prop :=
  ∀ (a : Addr) (t : DecodeType) (pl : List Byte), (pl.length = 1 ∨ pl.length = 2 ∨ pl.length = 4) →
    pl.length % t.width = 0 →
    let r := (completionOutcome (.type t) a pl).record
    r.kind = 0 ∧ r.addr = a ∧ r.type = t.code ∧ r.n.toNat = pl.length / t.width ∧ r.hdr = 0 ∧
      (∀ (j : Nat) (b : Byte), pl[j]? = some b → r.data.extractLsb' (8 * j) 8 = b) ∧
      ∀ j, pl.length ≤ j → r.data.extractLsb' (8 * j) 8 = 0

/-- The record of every outcome that carries no value, `Unknown` among them though nothing produces it (log 8): type,
count and data are 0, the address is 0 unless the outcome has one, and only a hardware-source header fills `out_hdr`
(spec/30_encoding.md section 4, decision D5). -/
def Obligations.RecordOfValuelessOutcomes : Prop :=
  ∀ (a : Addr) (h : Byte),
    DecodeOutcome.parseBufferOverrun.record = ⟨1, 0, 0, 0, 0, 0⟩ ∧ DecodeOutcome.overflow.record = ⟨2, 0, 0, 0, 0, 0⟩ ∧
    (DecodeOutcome.invalidHeaderSize a).record = ⟨3, a, 0, 0, 0, 0⟩ ∧
    (DecodeOutcome.underfull a).record = ⟨4, a, 0, 0, 0, 0⟩ ∧
    (DecodeOutcome.unconfiguredPort a).record = ⟨5, a, 0, 0, 0, 0⟩ ∧
    (DecodeOutcome.sizeMismatch a).record = ⟨6, a, 0, 0, 0, 0⟩ ∧
    DecodeOutcome.unknown.record = ⟨7, 0, 0, 0, 0, 0⟩ ∧
    (DecodeOutcome.unsupportedPacket (.hardwareSource h)).record = ⟨8, 0, 0, 0, 0, h⟩ ∧
    (DecodeOutcome.unsupportedPacket .sync).record = ⟨9, 0, 0, 0, 0, 0⟩

/-! ### Streams -/

/-- From an empty buffer any sequence of packets gives, byte for byte, the outcomes of its packets, one per byte, and
leaves the buffer empty and the configuration as it was (spec/41_buffer_controller.md section 5, drip-feed
equivalence; the notation is decision D10, the one-byte kinds decision D6). -/
def Obligations.StreamOfPacketsDecodesPacketByPacket : Prop :=
  ∀ (ps : List Packet) (s : State) (rest : List Input), (∀ p ∈ ps, p.ok = true) → s.buf = [] →
    s.input = bytesIn (streamOf ps) ++ rest →
    ∃ t, trace (streamOf ps).length s = some (t, ps.flatMap (Packet.outcomes s.cfg)) ∧
      t.buf = [] ∧ t.cfg = s.cfg ∧ t.input = rest

/-- A synchronisation frame that meets an empty buffer is taken as six invalid headers: the spec's own inference
(spec/70_reset_and_hazards.md section 4: "Six bytes, six outcomes, no `UnsupportedPacket{Sync}`"). -/
def Obligations.SyncFrameAtAnEmptyBufferIsSixInvalidHeaders : Prop :=
  ∀ (s : State) (rest : List Input), s.buf = [] → s.input = bytesIn syncPattern ++ rest →
    ∃ t, trace 6 s = some (t, List.replicate 5 (.invalidHeaderSize 0) ++ [.invalidHeaderSize 16]) ∧
      t.buf = [] ∧ t.input = rest

/-- After an overrun the seeded byte, whatever it is, is matched only by the next step, on the buffer with that step's
own byte behind it; so a seeded overflow marker is reported one step late, and the second byte then waits. The spec's
own inference (spec/70_reset_and_hazards.md section 4: "The match runs once per step and only after an append"). -/
def Obligations.SeededByteIsMatchedOneStepLate : Prop :=
  ∀ (s : State) (b0 b : Byte) (rest : List Input), s.cnt = 6 → s.input = .byte b0 :: .byte b :: rest →
    ∃ t i, step s = .next t ∧ t.out = some .parseBufferOverrun ∧ t.buf = [b0] ∧ t.cfg = s.cfg ∧
      t.input = .byte b :: rest ∧ decode [b0, b] = .ok i ∧
      step t = exec i { t with buf := [b0, b], input := rest } ∧
      (b0 = 0x70 → ∃ u, step t = .next u ∧ u.out = some .overflow ∧ u.buf = [b] ∧ u.input = rest)

/-! ### The signal binding -/

/-- An edge with `rst` low and `in_valid` high accepts its byte whatever the state is, with `in_ready` constant 1, and
`out_valid` is high with the record of the one outcome; `rst` takes precedence over `in_valid`; an edge with neither
returns none (spec/00_scope.md section 3, decisions D1 and D16; one input at an edge is log 10). -/
def Obligations.SignalEdgeFollowsTheBinding : Prop :=
  ∀ (s : State) (sig : InSignals), s.cnt ≤ 6 → s.signals.inReady = true ∧
    (sig.rst = true → clockEdge sig s = step { s with input := [.rst sig.cfgI] }) ∧
    (sig.rst = false → sig.inValid = true → ∃ t o, clockEdge sig s = .next t ∧
      clockEdge sig s = step { s with input := [.byte sig.inByte] } ∧ t.out = some o ∧
      t.signals = ⟨true, true, some o.record⟩) ∧
    (sig.rst = false → sig.inValid = false → ∃ t, clockEdge sig s = .next t ∧
      t.cfg = s.cfg ∧ t.buf = s.buf ∧ t.signals = ⟨true, false, none⟩)
end

