-- ==== Sys2Proof/Laws/State.lean ====
section
/-! SUPPORT. One lemma per field and update of the state, so that no proof unfolds a record update; and that every
buffer operation keeps the capacity invariant. -/

namespace Sys2Proof.Machine

@[simp] theorem append_cfg (s : State) (b : Byte) : (s.append b).cfg = s.cfg := rfl
@[simp] theorem append_buf (s : State) (b : Byte) : (s.append b).buf = s.buf ++ [b] := rfl
@[simp] theorem append_input (s : State) (b : Byte) : (s.append b).input = s.input := rfl
@[simp] theorem append_out (s : State) (b : Byte) : (s.append b).out = s.out := rfl
@[simp] theorem append_cnt (s : State) (b : Byte) : (s.append b).cnt = s.cnt + 1 := by simp [State.cnt]

@[simp] theorem setBuf_cfg (s : State) (l : List Byte) : (s.setBuf l).cfg = s.cfg := rfl
@[simp] theorem setBuf_buf (s : State) (l : List Byte) : (s.setBuf l).buf = l := rfl
@[simp] theorem setBuf_input (s : State) (l : List Byte) : (s.setBuf l).input = s.input := rfl
@[simp] theorem setBuf_out (s : State) (l : List Byte) : (s.setBuf l).out = s.out := rfl
@[simp] theorem setBuf_cnt (s : State) (l : List Byte) : (s.setBuf l).cnt = l.length := rfl
@[simp] theorem setBuf_lookup (s : State) (l : List Byte) (a : Addr) : (s.setBuf l).lookup a = s.lookup a := rfl

@[simp] theorem new_cfg (c : PortConfig) (i : List Input) : (State.new c i).cfg = c := rfl
@[simp] theorem new_buf (c : PortConfig) (i : List Input) : (State.new c i).buf = [] := rfl
@[simp] theorem new_input (c : PortConfig) (i : List Input) : (State.new c i).input = i := rfl
@[simp] theorem new_out (c : PortConfig) (i : List Input) : (State.new c i).out = none := rfl

/-- The capacity invariant as an inequality (R17). -/
theorem wf_iff (s : State) : s.wf = true ↔ s.cnt ≤ 6 := by simp [State.wf]

/-- `APPEND` keeps the invariant where R71 allows it. -/
theorem append_wf (s : State) (b : Byte) (h : s.cnt < 6) : (s.append b).wf = true := by
  rw [wf_iff, append_cnt]; omega

/-- `pop` keeps the invariant (R72, R75). -/
theorem pop_wf (s t : State) (p n : Nat) (taken : List Byte) (hs : s.wf = true) (h : s.pop p n = some (taken, t)) :
    t.wf = true := by
  unfold State.pop at h
  split at h
  · simp only [Option.some.injEq, Prod.mk.injEq] at h
    rw [wf_iff] at hs ⊢
    rw [← h.2]
    simp only [State.cnt, setBuf_buf, List.length_append, List.length_take, List.length_drop] at *
    omega
  · cases h

/-- A constructed state meets the invariant (R127). -/
theorem new_wf (c : PortConfig) (i : List Input) : (State.new c i).wf = true := by simp [wf_iff, State.cnt]

end Sys2Proof.Machine
end

