-- ==== Sys2Proof/Laws/Config.lean ====
section
/-! SUPPORT. Configurations as lists and as bits (40_port_config.md R65, 30_encoding.md R60). -/

namespace Sys2Proof.Machine

/-- A list of optional results is some list exactly when every element is. -/
theorem mapM_eq_some {α β : Type} (f : α → Option β) (l : List α) (r : List β) :
    l.mapM f = some r ↔ l.map f = r.map some := by
  induction l generalizing r with
  | nil => cases r <;> simp
  | cons a l ih =>
    rw [List.mapM_cons]
    cases hf : f a with
    | none => cases r <;> simp [hf]
    | some b =>
      cases hl : l.mapM f with
      | none =>
        cases r with
        | nil => simp
        | cons b' r =>
          have : ¬ l.map f = r.map some := fun h => by rw [(ih r).mpr h] at hl; cases hl
          simp [hf, this]
      | some r' =>
        cases r with
        | nil => simp
        | cons b' r =>
          have : (some r' = some r) ↔ l.map f = r.map some := by rw [← hl]; exact ih r
          simp only [Option.some.injEq] at this
          simp [hf, this]

/-- `CONSTRUCT` succeeds on 32 entries and keeps each of them (R65). -/
theorem construct_some (config : List CfgEntry) (h : config.length = 32) :
    ∃ c, construct? config = some c ∧ ∀ a : Addr, config[a.toNat]? = some (entryAt c a) := by
  refine ⟨⟨⟨config⟩, h⟩, by simp [construct?, h], fun a => ?_⟩
  have := a.isLt
  rw [List.getElem?_eq_getElem (by omega)]
  rfl

/-- `CONSTRUCT` is not defined on any other length (U6). -/
theorem construct_none (config : List CfgEntry) (h : config.length ≠ 32) : construct? config = none := by
  simp [construct?, h]

/-- The entries of `cfg_i`, entry by entry (R60). -/
theorem entriesOfBits_eq_some (cfgI : BitVec 96) (entries : List CfgEntry) :
    entriesOfBits? cfgI = some entries ↔ entries.length = 32 ∧
      ∀ k, k < 32 → CfgEntry.ofCode? (cfgI.extractLsb' (3 * k) 3) = entries[k]? := by
  rw [entriesOfBits?, mapM_eq_some]
  constructor
  · intro h
    have hl : entries.length = 32 := by simpa using (congrArg List.length h).symm
    refine ⟨hl, fun k hk => ?_⟩
    have := congrArg (fun l => l[k]?) h
    simp only [List.getElem?_map, List.getElem?_range hk, Option.map_some] at this
    rw [List.getElem?_eq_getElem (by omega)] at this ⊢
    simpa using this
  · rintro ⟨hl, h⟩
    apply List.ext_getElem?
    intro k
    by_cases hk : k < 32
    · simp only [List.getElem?_map, List.getElem?_range hk, Option.map_some]
      rw [h k hk, List.getElem?_eq_getElem (by omega)]
      rfl
    · rw [List.getElem?_eq_none (by simp [Config.numPorts]; omega), List.getElem?_eq_none (by simp; omega)]

end Sys2Proof.Machine
end

