-- ==== Sys2Proof/Laws/Decode.lean ====
section
/-! SUPPORT. The fields of a written header, the kinds a front byte can be, and the little-endian bytes of a word. -/

namespace Sys2Proof

@[simp] theorem addrOf_softwareHeader (a : Addr) (ss : BitVec 2) : addrOf (softwareHeader a ss) = a := by
  revert a ss; decide

@[simp] theorem srcOf_softwareHeader (a : Addr) (ss : BitVec 2) : srcOf (softwareHeader a ss) = false := by
  revert a ss; decide

@[simp] theorem ssOf_softwareHeader (a : Addr) (ss : BitVec 2) : ssOf (softwareHeader a ss) = ss := by
  revert a ss; decide

/-- A front byte with bit 2 clear is the header its fields make (R48). -/
theorem softwareHeader_fields (h : Byte) (hs : srcOf h = false) : softwareHeader (addrOf h) (ssOf h) = h := by
  revert h; decide

/-- What the match can find from a front byte, with what that says of the byte (R56). -/
theorem decodeHeader_cases (h : Byte) :
    (h = 0x70 ∧ decodeHeader h = .ovf) ∨
    (h ≠ 0x70 ∧ srcOf h = true ∧ decodeHeader h = .hwsrc h) ∨
    (h ≠ 0x70 ∧ srcOf h = false ∧ ssOf h = 0 ∧ addrOf h ≠ 14 ∧ decodeHeader h = .swit0 (addrOf h)) ∨
    (srcOf h = false ∧ ssOf h = 1 ∧ decodeHeader h = .swit1 (addrOf h)) ∨
    (srcOf h = false ∧ ssOf h = 2 ∧ decodeHeader h = .swit2 (addrOf h)) ∨
    (srcOf h = false ∧ ssOf h = 3 ∧ decodeHeader h = .swit4 (addrOf h)) := by
  revert h; decide

/-- The match on a buffer that is not the synchronisation pattern reads its front byte (R56). -/
theorem decode_cons (h : Byte) (tail : List Byte) (hs : h :: tail ≠ syncPattern) :
    decode (h :: tail) = .ok (decodeHeader h) := by
  simp [decode, hs]

/-- The match finds a kind on every buffer with a front byte (R90). -/
theorem decode_some (h : Byte) (tail : List Byte) :
    (h :: tail = syncPattern ∧ decode (h :: tail) = .ok .sync) ∨
    (h :: tail ≠ syncPattern ∧ decode (h :: tail) = .ok (decodeHeader h)) := by
  by_cases hs : h :: tail = syncPattern
  · exact .inl ⟨hs, by rw [hs]; rfl⟩
  · exact .inr ⟨hs, decode_cons h tail hs⟩

/-- A declared size is 1, 2 or 4, or none for the invalid code (R51). -/
theorem payloadSize_cases (ss : BitVec 2) :
    (ss = 0 ∧ payloadSize ss = 0) ∨ (ss = 1 ∧ payloadSize ss = 1) ∨ (ss = 2 ∧ payloadSize ss = 2) ∨
      (ss = 3 ∧ payloadSize ss = 4) := by
  revert ss; decide

end Sys2Proof
end

