-- ==== Sys2Proof/Laws/Ops.lean ====
section
/-! SUPPORT. What each shared operation can do, said once (R72, R13, R85, R89). -/

namespace Sys2Proof.Machine

/-- Taking `n` bytes off the front where they are buffered. -/
theorem popFront_eq (s : State) (n : Nat) (k : List Byte → State → StepResult) (h : n ≤ s.cnt) :
    s.popFront n k = k (s.buf.take n) (s.setBuf (s.buf.drop n)) := by
  simp [State.popFront, State.pop, h]

/-- Taking more than is buffered is refused (U7). -/
theorem popFront_refused (s : State) (n : Nat) (k : List Byte → State → StepResult) (h : s.cnt < n) :
    s.popFront n k = .refused .popBeyondOccupied := by
  have h' : ¬ n ≤ s.cnt := by omega
  simp [State.popFront, State.pop, h']

/-- If taking `n` bytes answers a next state, the bytes were there and the rest of the step answered it. -/
theorem popFront_next (s t : State) (n : Nat) (k : List Byte → State → StepResult) (h : s.popFront n k = .next t) :
    n ≤ s.cnt ∧ k (s.buf.take n) (s.setBuf (s.buf.drop n)) = .next t := by
  by_cases hn : n ≤ s.cnt
  · exact ⟨hn, by rw [← popFront_eq s n k hn]; exact h⟩
  · rw [popFront_refused s n k (by omega)] at h; cases h

/-- Reporting an outcome writes `out` and nothing else (R120). -/
theorem raise_eq (s : State) (o : DecodeOutcome) : s.raise o = .next { s with out := some o } := rfl

/-- The outcome that the reconstruct operation of type `t` reports for a payload. -/
def reconstructed (t : DecodeType) (pl : List Byte) : List TypedValue :=
  match t with
  | .char => pl.map decodeChar
  | .u32 => (chunks4 pl).map decodeU32
  | .i32 => (chunks4 pl).map decodeI32
  | .f32 => (chunks4 pl).map decodeF32
  | .fixed16_16 => (chunks4 pl).map decodeQ16

/-- A reconstruct operation always answers, writing `out` only (R95 to R99). -/
theorem reconstruct_eq (t : DecodeType) (a : Addr) (pl : List Byte) (s : State) :
    reconstruct t a pl s = .next { s with out := some (.decodedValue a (reconstructed t pl)) } := by
  cases t <;> rfl

/-- The outcome of a completed packet by its port's entry, in the order of R85. -/
def payloadOutcome (e : CfgEntry) (a : Addr) (size : Nat) (pl : List Byte) : DecodeOutcome :=
  match e with
  | .disabled => .unconfiguredPort a
  | .type t => if size % t.width ≠ 0 then .sizeMismatch a else .decodedValue a (reconstructed t pl)

/-- The interpretation of a payload always answers, writing `out` only. -/
theorem interpretPayload_eq (a : Addr) (size : Nat) (pl : List Byte) (s : State) :
    interpretPayload a size pl s = .next { s with out := some (payloadOutcome (s.lookup a) a size pl) } := by
  unfold interpretPayload payloadOutcome
  cases s.lookup a with
  | disabled => rfl
  | type t => simp only [reconstruct_eq]; split <;> rfl

/-- `COMPLETE` where the packet is whole (R85): its bytes leave the buffer in every ending. -/
theorem complete_eq (a : Addr) (size : Nat) (s : State) (h : 1 + size ≤ s.cnt) :
    complete a size s = .next { s with
      buf := s.buf.drop (1 + size)
      out := some (payloadOutcome (s.lookup a) a size ((s.buf.drop 1).take size)) } := by
  have h2 : size ≤ (s.setBuf (s.buf.drop 1)).cnt := by
    simp only [State.cnt, setBuf_buf, List.length_drop] at *; omega
  rw [complete, popFront_eq s 1 _ (by omega), popFront_eq _ size _ h2, interpretPayload_eq]
  simp [State.setBuf, State.lookup, Nat.add_comm]

/-- A packet waits while bytes are missing (R89). -/
theorem collect_waits (a : Addr) (size : Nat) (s : State) (h : s.cnt < 1 + size) :
    collect a size s = .next { s with out := some (.underfull a) } := by
  simp [collect, h, State.raise]

/-- A packet whose bytes are all there completes (R85). -/
theorem collect_completes (a : Addr) (size : Nat) (s : State) (h : 1 + size ≤ s.cnt) :
    collect a size s = .next { s with
      buf := s.buf.drop (1 + size)
      out := some (payloadOutcome (s.lookup a) a size ((s.buf.drop 1).take size)) } := by
  rw [collect, if_neg (by omega), complete_eq a size s h]

end Sys2Proof.Machine
end

