-- ==== Sys2Proof/Laws/Step.lean ====
section
/-! SUPPORT. What exec and step can do, said once: the equation of each shape of instruction, the step by the
caller's next input, and the inversion of a byte's step. -/

namespace Sys2Proof.Machine

/-- A packet kind that removes `n` bytes and reports `o`, where they are buffered. -/
theorem popRaise_eq (s : State) (n : Nat) (o : DecodeOutcome) (h : n ≤ s.cnt) :
    (s.popFront n fun _ s' => s'.raise o) = .next { s with buf := s.buf.drop n, out := some o } := by
  rw [popFront_eq s n _ h]; rfl

/-- The same, read backwards. -/
theorem popRaise_next (s t : State) (n : Nat) (o : DecodeOutcome)
    (h : (s.popFront n fun _ s' => s'.raise o) = .next t) :
    n ≤ s.cnt ∧ t = { s with buf := s.buf.drop n, out := some o } := by
  obtain ⟨hn, ht⟩ := popFront_next s t n _ h
  exact ⟨hn, by simpa [State.raise, State.setBuf, eq_comm] using ht⟩

/-- Everything a packet with a valid size code can do (R86 to R89): it never stops. -/
theorem collect_cases (a : Addr) (size : Nat) (s : State) :
    (s.cnt < 1 + size ∧ collect a size s = .next { s with out := some (.underfull a) }) ∨
    (1 + size ≤ s.cnt ∧ collect a size s = .next { s with
      buf := s.buf.drop (1 + size)
      out := some (payloadOutcome (s.lookup a) a size ((s.buf.drop 1).take size)) }) := by
  by_cases h : s.cnt < 1 + size
  · exact .inl ⟨h, collect_waits a size s h⟩
  · exact .inr ⟨by omega, collect_completes a size s (by omega)⟩

/-- A pause (R125). -/
theorem step_pause (s : State) (h : s.input = []) : step s = .next { s with out := none } := by
  simp [step, advance, h, idle]

/-- A byte (R74). -/
theorem step_byte (s : State) (b : Byte) (rest : List Input) (h : s.input = .byte b :: rest) :
    step s = feedByte b { s with input := rest } := by
  simp [step, advance, h, accept]

/-- `new(config)` (R127). -/
theorem step_new (s : State) (config : List CfgEntry) (rest : List Input) (h : s.input = .new config :: rest) :
    step s = construct config { s with input := rest } := by
  simp [step, advance, h, accept]

/-- `rst` (R8). -/
theorem step_rst (s : State) (cfgI : BitVec 96) (rest : List Input) (h : s.input = .rst cfgI :: rest) :
    step s = constructBits cfgI { s with input := rest } := by
  simp [step, advance, h, accept]

/-- A byte at a full buffer (R70). -/
theorem feedByte_full (b : Byte) (s : State) (h : ¬ s.cnt < 6) :
    feedByte b s = .next { s with buf := [b], out := some .parseBufferOverrun } := by
  simp [feedByte, h, overrun, State.raise, State.setBuf]

/-- A byte at any other buffer is appended and matched (R71, R73). -/
theorem feedByte_match (b : Byte) (s : State) (i : Instr) (h : s.cnt < 6) (hd : decode (s.buf ++ [b]) = .ok i) :
    feedByte b s = exec i (s.append b) := by
  simp [feedByte, h, matchAndRun, hd]

/-- Everything a byte's step can do (R74, R76): `h` is the front byte after the append, `tail` what follows it. The
cases are in the order of R119. -/
theorem feedByte_cases (b : Byte) (s : State) : ∃ h tail, s.buf ++ [b] = h :: tail ∧
    ((6 ≤ s.cnt ∧ feedByte b s = .next { s with buf := [b], out := some .parseBufferOverrun }) ∨
     (s.cnt = 5 ∧ h :: tail = syncPattern ∧
       feedByte b s = .next { s with buf := [], out := some (.unsupportedPacket .sync) }) ∨
     (s.cnt < 6 ∧ h :: tail ≠ syncPattern ∧ h = 0x70 ∧
       feedByte b s = .next { s with buf := tail, out := some .overflow }) ∨
     (s.cnt < 6 ∧ h :: tail ≠ syncPattern ∧ h ≠ 0x70 ∧ srcOf h = true ∧
       feedByte b s = .next { s with buf := tail, out := some (.unsupportedPacket (.hardwareSource h)) }) ∨
     (s.cnt < 6 ∧ h :: tail ≠ syncPattern ∧ h ≠ 0x70 ∧ srcOf h = false ∧ ssOf h = 0 ∧ addrOf h ≠ 14 ∧
       feedByte b s = .next { s with buf := tail, out := some (.invalidHeaderSize (addrOf h)) }) ∨
     (srcOf h = false ∧ ssOf h ≠ 0 ∧ s.cnt < payloadSize (ssOf h) ∧
       feedByte b s = .next { s with buf := h :: tail, out := some (.underfull (addrOf h)) }) ∨
     (s.cnt < 6 ∧ srcOf h = false ∧ ssOf h ≠ 0 ∧ payloadSize (ssOf h) ≤ s.cnt ∧
       feedByte b s = .next { s with
         buf := tail.drop (payloadSize (ssOf h))
         out := some (payloadOutcome (s.lookup (addrOf h)) (addrOf h) (payloadSize (ssOf h))
           (tail.take (payloadSize (ssOf h)))) })) := by
  obtain ⟨h, tail, hb⟩ : ∃ h tail, s.buf ++ [b] = h :: tail := by
    cases hs : s.buf with
    | nil => exact ⟨b, [], rfl⟩
    | cons x xs => exact ⟨x, xs ++ [b], rfl⟩
  have hlen : s.cnt = tail.length := by
    have := congrArg List.length hb; simpa [State.cnt] using this
  refine ⟨h, tail, hb, ?_⟩
  by_cases hfull : s.cnt < 6
  swap
  · exact .inl ⟨by omega, feedByte_full b s hfull⟩
  right
  have hbuf : (s.append b).buf = h :: tail := hb
  have hcnt : (s.append b).cnt = s.cnt + 1 := append_cnt s b
  obtain ⟨hsync, hd⟩ | ⟨hsync, hd⟩ := decode_some h tail
  · have h5 : s.cnt = 5 := by
      have := congrArg List.length hsync; simp [syncPattern] at this; omega
    refine .inl ⟨h5, hsync, ?_⟩
    rw [feedByte_match b s .sync hfull (by rw [hb]; exact hd), exec, execSync,
      popRaise_eq _ _ _ (by omega), hbuf, hsync]
    simp [State.append, syncPattern]
  right
  have hrun : ∀ i, decodeHeader h = i → feedByte b s = exec i (s.append b) := by
    rintro i rfl; exact feedByte_match b s _ hfull (by rw [hb]; exact hd)
  have hone : ∀ o, ((s.append b).popFront 1 fun _ s' => s'.raise o) = .next { s with buf := tail, out := some o } := by
    intro o
    rw [popRaise_eq _ _ _ (by omega), hbuf]; simp [State.append]
  have hmany : ∀ size, feedByte b s = collect (addrOf h) size (s.append b) →
      (s.cnt < size ∧ feedByte b s = .next { s with buf := h :: tail, out := some (.underfull (addrOf h)) }) ∨
      (size ≤ s.cnt ∧ feedByte b s = .next { s with
        buf := tail.drop size
        out := some (payloadOutcome (s.lookup (addrOf h)) (addrOf h) size (tail.take size)) }) := by
    intro size he
    obtain ⟨hc, hr⟩ | ⟨hc, hr⟩ := collect_cases (addrOf h) size (s.append b)
    · refine .inl ⟨by omega, ?_⟩
      rw [he, hr]; simp [State.append, hb]
    · refine .inr ⟨by omega, ?_⟩
      rw [he, hr, hbuf]; simp [State.append, State.lookup, Nat.add_comm 1 size]
  obtain ⟨h70, hk⟩ | ⟨h70, hs, hk⟩ | ⟨h70, hs, hss, ha, hk⟩ | ⟨hs, hss, hk⟩ | ⟨hs, hss, hk⟩ | ⟨hs, hss, hk⟩ :=
    decodeHeader_cases h
  · exact .inl ⟨hfull, hsync, h70, by rw [hrun _ hk, exec, execOvf, hone]⟩
  · exact .inr (.inl ⟨hfull, hsync, h70, hs, by rw [hrun _ hk, exec, execHwsrc, hone]⟩)
  · exact .inr (.inr (.inl ⟨hfull, hsync, h70, hs, hss, ha, by rw [hrun _ hk, exec, execSwit0, hone]⟩))
  all_goals
    refine .inr (.inr (.inr ?_))
    have hz : ssOf h ≠ 0 := by rw [hss]; decide
    rw [hss]
  · obtain ⟨hc, hr⟩ | ⟨hc, hr⟩ := hmany 1 (by rw [hrun _ hk, exec, execSwit1])
    · exact .inl ⟨hs, hss ▸ hz, hc, hr⟩
    · exact .inr ⟨hfull, hs, hss ▸ hz, hc, hr⟩
  · obtain ⟨hc, hr⟩ | ⟨hc, hr⟩ := hmany 2 (by rw [hrun _ hk, exec, execSwit2])
    · exact .inl ⟨hs, hss ▸ hz, hc, hr⟩
    · exact .inr ⟨hfull, hs, hss ▸ hz, hc, hr⟩
  · obtain ⟨hc, hr⟩ | ⟨hc, hr⟩ := hmany 4 (by rw [hrun _ hk, exec, execSwit4])
    · exact .inl ⟨hs, hss ▸ hz, hc, hr⟩
    · exact .inr ⟨hfull, hs, hss ▸ hz, hc, hr⟩

/-- The buffer a byte leaves and the outcome it gives, as one function of the configuration, the buffer and the
byte (R43, R74). -/
def byteResult (c : PortConfig) (buf : List Byte) (b : Byte) : List Byte × DecodeOutcome :=
  if buf.length < 6 then
    match buf ++ [b] with
    | [] => ([], .unknown)
    | h :: tail =>
      if h :: tail = syncPattern then ([], .unsupportedPacket .sync)
      else if h = 0x70 then (tail, .overflow)
      else if srcOf h = true then (tail, .unsupportedPacket (.hardwareSource h))
      else if ssOf h = 0 then (tail, .invalidHeaderSize (addrOf h))
      else if tail.length < payloadSize (ssOf h) then (h :: tail, .underfull (addrOf h))
      else (tail.drop (payloadSize (ssOf h)), payloadOutcome (entryAt c (addrOf h)) (addrOf h) (payloadSize (ssOf h))
        (tail.take (payloadSize (ssOf h))))
  else ([b], .parseBufferOverrun)

/-- A byte's step always answers, and writes the buffer and the outcome only (R69, R120). -/
theorem feedByte_eq (b : Byte) (s : State) :
    feedByte b s = .next { s with buf := (byteResult s.cfg s.buf b).1, out := some (byteResult s.cfg s.buf b).2 } := by
  obtain ⟨h, tail, hb, hh⟩ := feedByte_cases b s
  have hl : s.buf.length = tail.length := by simpa using congrArg List.length hb
  have hc : s.cnt = tail.length := hl
  have hsy : ssOf h ≠ 0 → h :: tail ≠ syncPattern := by
    rintro h0 hx; simp only [syncPattern, List.cons.injEq] at hx; rw [hx.1] at h0; exact h0 rfl
  have hov : ssOf h ≠ 0 → h ≠ 0x70 := by rintro h0 rfl; exact h0 rfl
  have hsz := payloadSize_cases (ssOf h)
  unfold byteResult
  simp only [hb, hl]
  obtain ⟨h6, hr⟩ | ⟨h5, hs, hr⟩ | ⟨h6, hs, h70, hr⟩ | ⟨h6, hs, h70, hsrc, hr⟩ | ⟨h6, hs, h70, hsrc, hss, -, hr⟩ |
    ⟨hsrc, hss, hw, hr⟩ | ⟨h6, hsrc, hss, hw, hr⟩ := hh <;> rw [hr]
  · rw [if_neg (by omega)]
  · rw [if_pos (by omega), if_pos hs]
  · rw [if_pos (by omega), if_neg hs, if_pos h70]
  · rw [if_pos (by omega), if_neg hs, if_neg h70, if_pos hsrc]
  · rw [if_pos (by omega), if_neg hs, if_neg h70, if_neg (by simp [hsrc]), if_pos hss]
  · rw [if_pos (by omega), if_neg (hsy hss), if_neg (hov hss), if_neg (by simp [hsrc]), if_neg hss, if_pos (by omega)]
  · rw [if_pos (by omega), if_neg (hsy hss), if_neg (hov hss), if_neg (by simp [hsrc]), if_neg hss,
      if_neg (by omega)]
    rfl

end Sys2Proof.Machine
end

