-- ==== Sys2Proof/Laws/Framing.lean ====
section
/-! SUPPORT. The buffer shapes of R77 written out, and how runs of several steps compose. -/

namespace Sys2Proof.Machine

/-- The two shapes of R77: empty, or a valid software-source header with fewer payload bytes than it declares. -/
theorem framed_iff (s : State) : s.framed = true ↔ s.buf = [] ∨
    ∃ h pl, s.buf = h :: pl ∧ srcOf h = false ∧ ssOf h ≠ 0 ∧ pl.length < payloadSize (ssOf h) := by
  unfold State.framed State.phase phaseOf
  cases hb : s.buf with
  | nil => simp
  | cons h pl =>
    by_cases hx : srcOf h = false ∧ ssOf h ≠ 0#2 ∧ pl.length < payloadSize (ssOf h) <;> simp_all

/-- A step followed by a run. -/
theorem trace_cons (n : Nat) (s t u : State) (o : DecodeOutcome) (os : List DecodeOutcome) (h : step s = .next t)
    (ho : t.out = some o) (ht : trace n t = some (u, os)) : trace (n + 1) s = some (u, o :: os) := by
  simp [trace, h, ho, ht]

/-- A run followed by a run (R42). -/
theorem trace_append (n m : Nat) (s t u : State) (os os' : List DecodeOutcome) (h : trace n s = some (t, os))
    (h' : trace m t = some (u, os')) : trace (n + m) s = some (u, os ++ os') := by
  induction n generalizing s os with
  | zero => simp [trace] at h; obtain ⟨rfl, rfl⟩ := h; simpa using h'
  | succ n ih =>
    rw [trace] at h
    split at h
    · rename_i t1 h1
      split at h
      · rename_i o v os1 ho htr
        simp only [Option.some.injEq, Prod.mk.injEq] at h
        obtain ⟨rfl, rfl⟩ := h
        rw [show n + 1 + m = n + m + 1 by omega]
        exact trace_cons _ _ _ _ _ _ h1 ho (ih _ _ htr)
      · cases h
    · cases h
    · cases h

end Sys2Proof.Machine
end

