-- ==== Sys2Proof/Laws/PerInstr.lean ====
section
/-! SUPPORT. A statement for every instruction as it is written, one lemma per constructor: the encoding of a
well-formed instruction, its packet included for a reconstruct operation, is nonempty and fits the lookahead buffer
(10_state.md R20: the longest other packet is five bytes, the synchronisation frame six). -/

namespace Sys2Proof.Laws

/-- The stream bytes of an encoding. -/
def encodedBytes : Encoding → List Byte
  | .stream bytes => bytes
  | .completed _ packet => packet

/-- The encoding of a well-formed instruction has 1 to 6 bytes. -/
def EncodingFitsBuffer.Statement (i : Instr) : Prop :=
  i.wf = true → 0 < (encodedBytes (encode i)).length ∧ (encodedBytes (encode i)).length ≤ Config.lbCap

/-- One 4-byte chunk has four bytes. -/
theorem oneChunk_length (cs : List Chunk4) (h : wordCountOk cs.length = true) :
    (cs.flatMap Chunk4.bytes).length = 4 := by
  obtain ⟨c, rfl⟩ := List.length_eq_one_iff.mp (by simpa [wordCountOk] using h)
  rfl

theorem EncodingFitsBuffer.sync : Statement .sync := fun _ => by decide
theorem EncodingFitsBuffer.ovf : Statement .ovf := fun _ => by decide
theorem EncodingFitsBuffer.hwsrc (header : Byte) : Statement (.hwsrc header) := fun _ => by
  simp [encodedBytes, encode]
theorem EncodingFitsBuffer.swit0 (addr : Addr) : Statement (.swit0 addr) := fun _ => by simp [encodedBytes, encode]
theorem EncodingFitsBuffer.swit1 (addr : Addr) : Statement (.swit1 addr) := fun _ => by simp [encodedBytes, encode]
theorem EncodingFitsBuffer.swit2 (addr : Addr) : Statement (.swit2 addr) := fun _ => by simp [encodedBytes, encode]
theorem EncodingFitsBuffer.swit4 (addr : Addr) : Statement (.swit4 addr) := fun _ => by simp [encodedBytes, encode]
theorem EncodingFitsBuffer.decChar (port : Addr) (chunks : List Byte) : Statement (.decChar port chunks) := fun h => by
  simp only [Instr.wf, charCountOk, Bool.or_eq_true, beq_iff_eq] at h
  simp only [Config.lbCap, encodedBytes, encode, softwarePacket, List.length_cons]
  omega
theorem EncodingFitsBuffer.decU32 (port : Addr) (chunks : List Chunk4) : Statement (.decU32 port chunks) := fun h => by
  simp only [Config.lbCap, encodedBytes, encode, softwarePacket, List.length_cons, oneChunk_length chunks h]; omega
theorem EncodingFitsBuffer.decI32 (port : Addr) (chunks : List Chunk4) : Statement (.decI32 port chunks) := fun h => by
  simp only [Config.lbCap, encodedBytes, encode, softwarePacket, List.length_cons, oneChunk_length chunks h]; omega
theorem EncodingFitsBuffer.decF32 (port : Addr) (chunks : List Chunk4) : Statement (.decF32 port chunks) := fun h => by
  simp only [Config.lbCap, encodedBytes, encode, softwarePacket, List.length_cons, oneChunk_length chunks h]; omega
theorem EncodingFitsBuffer.decQ16 (port : Addr) (chunks : List Chunk4) : Statement (.decQ16 port chunks) := fun h => by
  simp only [Config.lbCap, encodedBytes, encode, softwarePacket, List.length_cons, oneChunk_length chunks h]; omega

end Sys2Proof.Laws
end

