-- ==== Sys2Proof/Laws/Values.lean ====
section
/-! SUPPORT. Little-endian words and bytes, the chunks of a payload, and the fields of a binary64 pattern. -/

namespace Sys2Proof.Machine

/-- The number of a concatenation. -/
theorem append_toNat {n m : Nat} (a : BitVec n) (b : BitVec m) : (a ++ b).toNat = a.toNat * 2 ^ m + b.toNat := by
  rw [BitVec.toNat_append, Nat.shiftLeft_eq, mul_comm, Nat.two_pow_add_eq_or_of_lt b.isLt]

/-- `le32` places its bytes in disjoint lanes (R33, R100(5)). -/
theorem le32_append (c : Chunk4) : le32 c = c.b3 ++ c.b2 ++ c.b1 ++ c.b0 := by
  apply BitVec.eq_of_getLsbD_eq
  intro i hi
  have g : ∀ (b : Byte) j, 8 ≤ j → b.getLsbD j = false := fun b j h => BitVec.getLsbD_of_ge b j h
  have hc : i < 8 ∨ (8 ≤ i ∧ i < 16) ∨ (16 ≤ i ∧ i < 24) ∨ 24 ≤ i := by omega
  simp only [le32, BitVec.getLsbD_append, BitVec.getLsbD_or, BitVec.getLsbD_shiftLeft, BitVec.getLsbD_setWidth]
  obtain h | ⟨h, h'⟩ | ⟨h, h'⟩ | h := hc
  · simp [h, hi, show i < 16 by omega, show i < 24 by omega]
  · simp [hi, h', show i < 24 by omega, show ¬ i < 8 by omega, g c.b0 i h, show i - 8 < 8 by omega,
      show i - 8 < 32 by omega]
  · simp [hi, h', show ¬ i < 16 by omega, show ¬ i < 8 by omega, g c.b0 i (by omega), g c.b1 (i - 8) (by omega),
      show ¬ i - 8 < 8 by omega, show i - 16 < 8 by omega, show i - 8 - 8 = i - 16 by omega,
      show i - 16 < 32 by omega]
  · simp [hi, show ¬ i < 24 by omega, show ¬ i < 16 by omega, show ¬ i < 8 by omega, g c.b0 i (by omega),
      g c.b1 (i - 8) (by omega), g c.b2 (i - 16) (by omega), show ¬ i - 8 < 8 by omega,
      show ¬ i - 16 < 8 by omega, show i - 8 - 8 = i - 16 by omega, show i - 16 - 8 = i - 24 by omega,
      show i - 24 < 32 by omega]

/-- The number `le32` stands for (R96). -/
theorem le32_toNat (c : Chunk4) :
    (le32 c).toNat = c.b0.toNat + 256 * c.b1.toNat + 65536 * c.b2.toNat + 16777216 * c.b3.toNat := by
  rw [le32_append, append_toNat, append_toNat, append_toNat]; omega

/-- Reading back the little-endian bytes of a pattern (R105). -/
theorem le32_of_leBytes (p : Bits32) :
    le32 ⟨p.extractLsb' 0 8, p.extractLsb' 8 8, p.extractLsb' 16 8, p.extractLsb' 24 8⟩ = p := by
  rw [le32_append]
  apply BitVec.eq_of_toNat_eq
  simp only [append_toNat, BitVec.extractLsb'_toNat, Nat.shiftRight_eq_div_pow]
  have := p.isLt
  omega

/-- The little-endian bytes of a chunk's pattern are the chunk (R105). -/
theorem leBytes_le32 (c : Chunk4) : leBytes (le32 c) = c.bytes := by
  have h0 := c.b0.isLt; have h1 := c.b1.isLt; have h2 := c.b2.isLt; have h3 := c.b3.isLt
  simp only [leBytes, Chunk4.bytes, List.cons.injEq, and_true]
  refine ⟨?_, ?_, ?_, ?_⟩
  all_goals
    apply BitVec.eq_of_toNat_eq
    simp only [BitVec.extractLsb'_toNat, Nat.shiftRight_eq_div_pow, le32_toNat]
    omega

/-- The chunks of the bytes of chunks are those chunks (R93). -/
theorem chunks4_bytes (cs : List Chunk4) : chunks4 (cs.flatMap Chunk4.bytes) = cs := by
  induction cs with
  | nil => rfl
  | cons c cs ih => rw [List.flatMap_cons, Chunk4.bytes, List.cons_append]; exact congrArg (c :: ·) ih

/-- The exponent field of a binary64 pattern. -/
theorem binary64_exponent (neg : Bool) (e : BitVec 11) (f : BitVec 52) :
    (binary64 neg e f).extractLsb' 52 11 = e := by
  apply BitVec.eq_of_toNat_eq
  have := e.isLt; have := f.isLt; have := (BitVec.ofBool neg).isLt
  simp only [binary64, BitVec.extractLsb'_toNat, Nat.shiftRight_eq_div_pow, append_toNat]
  omega

/-- The fraction field of a binary64 pattern. -/
theorem binary64_fraction (neg : Bool) (e : BitVec 11) (f : BitVec 52) :
    (binary64 neg e f).extractLsb' 0 52 = f := by
  apply BitVec.eq_of_toNat_eq
  have := e.isLt; have := f.isLt; have := (BitVec.ofBool neg).isLt
  simp only [binary64, BitVec.extractLsb'_toNat, Nat.shiftRight_eq_div_pow, append_toNat]
  omega

/-- The sign of a binary64 pattern. -/
theorem binary64_sign (neg : Bool) (e : BitVec 11) (f : BitVec 52) : (binary64 neg e f).msb = neg := by
  have := e.isLt; have := f.isLt
  rw [BitVec.msb_eq_decide, binary64, append_toNat, append_toNat]
  cases neg <;> simp <;> omega

/-- A binary64 pattern read by its fields (spec/93_implementation_defined.md G2). -/
theorem binary64Value_binary64 (neg : Bool) (e : BitVec 11) (f : BitVec 52) :
    binary64Value (binary64 neg e f) = ieeeValue 52 1023 2047 neg e.toNat f.toNat := by
  rw [binary64Value, binary64_exponent, binary64_fraction, binary64_sign]

/-- `split` into single bytes (R93, R106). -/
theorem split_one (pl : List Byte) : split pl 1 = pl.map fun b => [b] := by
  apply List.ext_getElem
  · simp [split]
  · intro k h1 h2
    simp only [List.length_map] at h2
    simp [split, List.take_one, List.head?_drop, List.getElem?_eq_getElem h2]

/-- The presentation of outcomes keeps the order of acceptance (R8, R42). -/
theorem presentedAt_lt (t u : Nat) (h : t < u) : presentedAt t < presentedAt u := by
  unfold presentedAt; omega

end Sys2Proof.Machine
end

