-- ==== Sys2Proof/Tests/Slice0.lean ====
section
/-! SUPPORT. The model's own tests: ill-formed terms refused, encodings written out bit by bit, one or two steps per
instruction with results from spec/95_test_vectors.md, and a witness for the hypotheses of every statement. -/

namespace Sys2Proof.Tests

open Sys2Proof Sys2Proof.Machine

/-! ### Helpers -/

/-- `cfg{0:U32, 1:Fixed16_16, 2:Char}`, the scenario's (95_test_vectors.md S7), with ports 4 and 5 `I32` and `F32`. -/
def demoCfg : PortConfig :=
  ((((PortConfig.allDisabled.set 0 (.type .u32)).set 1 (.type .fixed16_16)).set 2 (.type .char)).set 4
    (.type .i32)).set 5 (.type .f32)

/-- A state with a buffer, and bytes to come. -/
def held (buf bytes : List Byte) : State :=
  { cfg := demoCfg, buf := buf, input := bytesIn bytes, out := none }

/-- What a step reports and leaves in the buffer. -/
def seen : StepResult → Option (Option DecodeOutcome × List Byte)
  | .next t => some (t.out, t.buf)
  | .fault _ => none
  | .refused _ => none

/-- Feed one byte to a held buffer. -/
def fed (buf : List Byte) (b : Byte) : Option (Option DecodeOutcome × List Byte) := seen (step (held buf [b]))

/-! ### Well-formedness: an ill-formed term for each check -/

theorem test_wf_refuses_software_header_as_hardware : (Instr.hwsrc 0x70).wf = false := by decide
theorem test_wf_refuses_invalid_header_fourteen : (Instr.swit0 14).wf = false := by decide
theorem test_wf_refuses_three_characters : (Instr.decChar 2 [0x41, 0x42, 0x43]).wf = false := by decide
theorem test_wf_refuses_no_character : (Instr.decChar 2 []).wf = false := by decide
theorem test_wf_refuses_two_words : (Instr.decU32 0 [⟨0, 0, 0, 0⟩, ⟨0, 0, 0, 0⟩]).wf = false := by decide
theorem test_wf_refuses_no_word : (Instr.decI32 0 []).wf = false ∧ (Instr.decF32 0 []).wf = false ∧
    (Instr.decQ16 0 []).wf = false := by decide
theorem test_wf_accepts : (Instr.hwsrc 0x74).wf = true ∧ (Instr.swit0 31).wf = true ∧
    (Instr.decChar 2 [0x48, 0x69]).wf = true ∧ (Instr.decQ16 1 [⟨0, 0, 1, 0⟩]).wf = true := by decide

/-! ### Decoding, each word written out from the encoding of its row -/

theorem test_decode_sync : decode [0b00000000, 0b00000000, 0b00000000, 0b00000000, 0b00000000, 0b10000000] = .ok .sync := by
  rfl
theorem test_decode_ovf : decode [0b01110000] = .ok .ovf := by rfl
theorem test_decode_hwsrc : decode [0b01110100] = .ok (.hwsrc 0x74) := by rfl
theorem test_decode_swit0 : decode [0b01111000] = .ok (.swit0 15) := by rfl
theorem test_decode_swit1 : decode [0b00010001] = .ok (.swit1 2) := by rfl
theorem test_decode_swit2 : decode [0b11111010] = .ok (.swit2 31) := by rfl
theorem test_decode_swit4 : decode [0b00001011] = .ok (.swit4 1) := by rfl
theorem test_decode_decChar : decodeCompleted 0b001 [0b00010010, 0x48, 0x69] = .ok (.decChar 2 [0x48, 0x69]) := by rfl
theorem test_decode_decU32 :
    decodeCompleted 0b010 [0b00000011, 0x2A, 0x00, 0x00, 0x00] = .ok (.decU32 0 [⟨0x2A, 0x00, 0x00, 0x00⟩]) := by rfl
theorem test_decode_decI32 :
    decodeCompleted 0b011 [0b00100011, 0xD6, 0xFF, 0xFF, 0xFF] = .ok (.decI32 4 [⟨0xD6, 0xFF, 0xFF, 0xFF⟩]) := by rfl
theorem test_decode_decF32 :
    decodeCompleted 0b100 [0b00101011, 0x00, 0x00, 0xC0, 0x7F] = .ok (.decF32 5 [⟨0x00, 0x00, 0xC0, 0x7F⟩]) := by rfl
theorem test_decode_decQ16 :
    decodeCompleted 0b101 [0b00001011, 0x00, 0x00, 0x01, 0x00] = .ok (.decQ16 1 [⟨0x00, 0x00, 0x01, 0x00⟩]) := by rfl

/-- Each name of a rejection is reached (R56, R60, R38). -/
theorem test_decode_rejects : decode [] = .error .noFrontByte ∧
    decodeCompleted 0 [0x11, 0x41] = .error .disabledPort ∧ decodeCompleted 6 [0x11, 0x41] = .error .reservedCode ∧
    decodeCompleted 1 [0x11] = .error .notACompletePacket ∧ decodeCompleted 2 [0x11, 0x41] = .error .sizeMismatch := by
  exact ⟨rfl, rfl, rfl, rfl, rfl⟩

/-- The words of the opcode table as the host numbers them (log 11). -/
theorem test_table_words : decodeTableWord 8 0x70 = some .ovf ∧ decodeTableWord 8 0x04 = some (.hwsrc 4) ∧
    decodeTableWord 8 0x03 = some (.swit4 0) ∧ decodeTableWord 48 0x80 = some .sync ∧
    decodeTableWord 3 1 = some (.decChar 0 [0]) ∧ decodeTableWord 3 6 = none := by decide

/-- The stream forms of R62: `SWIT.I32 1, -42` and `SWIT.Q16 31, -32768` (95_test_vectors.md P2), `SWIT.CH4 0`. -/
theorem test_stream_forms : asmI32 1 (-42) = [0x0B, 0xD6, 0xFF, 0xFF, 0xFF] ∧
    asmQ16 31 (-32768) = [0xFB, 0x00, 0x80, 0xFF, 0xFF] ∧ asmU32 0 42 = [0x03, 0x2A, 0x00, 0x00, 0x00] ∧
    asmF32 5 0x7FC00000 = [0x2B, 0x00, 0x00, 0xC0, 0x7F] ∧ asmCh 2 0x41 = [0x11, 0x41] ∧
    asmCh2 2 0x48 0x69 = [0x12, 0x48, 0x69] ∧ asmCh4 0 0x48 0x69 0x21 0x0A = [0x03, 0x48, 0x69, 0x21, 0x0A] := by
  decide

/-! ### Steps (95_test_vectors.md sections 3 to 6) -/

theorem test_step_sync : fed [0, 0, 0, 0, 0] 0x80 = some (some (.unsupportedPacket .sync), []) := by decide
theorem test_step_six_zeros_are_no_sync :
    fed [0, 0, 0, 0, 0] 0x00 = some (some (.invalidHeaderSize 0), [0, 0, 0, 0, 0]) := by decide
theorem test_step_ovf : fed [] 0x70 = some (some .overflow, []) := by decide
theorem test_step_ovf_keeps_what_follows : fed [0x70, 0x11] 0x41 = some (some .overflow, [0x11, 0x41]) := by decide
theorem test_step_hwsrc : fed [] 0xFF = some (some (.unsupportedPacket (.hardwareSource 0xFF)), []) := by decide
theorem test_step_swit0 : fed [] 0x78 = some (some (.invalidHeaderSize 15), []) := by decide
theorem test_step_swit0_needs_six_for_sync :
    fed [0, 0, 0, 0] 0x80 = some (some (.invalidHeaderSize 0), [0, 0, 0, 0x80]) := by decide
theorem test_step_swit1_payload_may_be_the_marker : fed [0x11] 0x70 = some (some (.decodedValue 2 [.char 0x70]), []) := by
  decide
theorem test_step_swit1_unconfigured : fed [0x99] 0x70 = some (some (.unconfiguredPort 19), []) := by decide
theorem test_step_swit2 : fed [0x12, 0x48] 0x69 = some (some (.decodedValue 2 [.char 0x48, .char 0x69]), []) := by decide
theorem test_step_swit2_mismatch : fed [0x0A, 0x01] 0x02 = some (some (.sizeMismatch 1), []) := by decide
theorem test_step_swit4_waits : fed [0x03, 0x2A, 0x00] 0x00 = some (some (.underfull 0), [0x03, 0x2A, 0x00, 0x00]) := by
  decide
theorem test_step_swit4_byte_behind :
    fed [0x03, 0x01, 0x00, 0x00, 0x00] 0x99 = some (some (.decodedValue 0 [.u32 0x00000001]), [0x99]) := by decide
theorem test_exec_decChar : seen (exec (.decChar 2 [0x11, 0x22]) (held [] [])) =
    some (some (.decodedValue 2 [.char 0x11, .char 0x22]), []) := by decide
theorem test_exec_decU32 : seen (exec (.decU32 0 [⟨0x78, 0x56, 0x34, 0x12⟩]) (held [0x99] [])) =
    some (some (.decodedValue 0 [.u32 0x12345678]), [0x99]) := by decide
theorem test_exec_decI32 : seen (exec (.decI32 4 [⟨0xD6, 0xFF, 0xFF, 0xFF⟩]) (held [] [])) =
    some (some (.decodedValue 4 [.i32 0xFFFFFFD6]), []) := by decide
theorem test_exec_decF32 : seen (exec (.decF32 5 [⟨0x00, 0x00, 0xC0, 0x7F⟩]) (held [] [])) =
    some (some (.decodedValue 5 [.f32 0x7FC00000]), []) := by decide
theorem test_exec_decQ16 : seen (exec (.decQ16 1 [⟨0x00, 0x80, 0xFF, 0xFF⟩]) (held [] [])) =
    some (some (.decodedValue 1 [.fixed16_16 0xFFFF8000]), []) := by decide
theorem test_step_overrun_discards_a_sync_pattern :
    fed [0, 0, 0, 0, 0, 0x80] 0x00 = some (some .parseBufferOverrun, [0x00]) := by decide
theorem test_pop_beyond_is_refused : ∃ r, exec .ovf (held [] []) = .refused r ∧ r = .popBeyondOccupied := ⟨_, rfl, rfl⟩

/-- A placed word runs in the next step: the packet is completed, a `CFG3` word with its type configured (log 12). -/
theorem test_placed_words : seen (step (State.reset.withFetchWord 48 0x80)) = some (some (.unsupportedPacket .sync), []) ∧
    seen (step (State.reset.withFetchWord 8 0x03)) = some (some (.unconfiguredPort 0), []) ∧
    seen (step (State.reset.withFetchWord 3 5)) = some (some (.decodedValue 0 [.fixed16_16 0]), []) := by decide

/-! ### Configuration bits, records, values (95_test_vectors.md sections 2, 5, 6) -/

theorem test_configuration_bits :
    bitsOfEntries ([.type .u32, .type .fixed16_16, .type .char] ++ List.replicate 29 .disabled) = 0x6A := by decide
theorem test_record_of_four_characters :
    (DecodeOutcome.decodedValue 0 [.char 0x48, .char 0x69, .char 0x21, .char 0x0A]).record =
      ⟨0, 0, 1, 4, 0x0A216948, 0⟩ := by decide
theorem test_record_of_float : (DecodeOutcome.decodedValue 5 [.f32 0x7FC00000]).record =
    ⟨0, 5, 4, 1, 0x7FC00000, 0⟩ := by decide
theorem test_val_signed : (TypedValue.i32 0x80000000).val = some (.finite (-2147483648)) := by decide +kernel
theorem test_val_fixed_point : (TypedValue.fixed16_16 0xFFFF8000).val = some (.finite (-1 / 2)) := by decide +kernel
theorem test_val_float_ten : (TypedValue.f32 0x41200000).val = some (.finite 10) := by decide +kernel
theorem test_val_float_special : (TypedValue.f32 0x80000000).val = some .negZero ∧
    (TypedValue.f32 0xFF800000).val = some (.infinity true) ∧ (TypedValue.f32 0x7FC00000).val = some .notANumber := by
  decide +kernel
/-- Binary64 1.0 is `0x3FF0000000000000` (IEEE 754, 93_implementation_defined.md G2). -/
theorem test_num_fixed_point_one :
    (match (TypedValue.fixed16_16 0x00010000).num 0 with | .ok d => d | .error _ => 0) = 0x3FF0000000000000 := by decide +kernel
/-- `render(Fixed16_16(0x00010000))` is a numeral of 1, never `65536` (95_test_vectors.md). -/
theorem test_numerals : numeralValue? "1.0".toList = some 1 ∧ numeralValue? "65536".toList = some 65536 ∧
    numeralValue? "-0.5".toList = some (-1 / 2) ∧ numeralValue? "-.5".toList = none := by decide +kernel

/-! ### Witnesses: a state and operands that meet the hypotheses of each statement -/

theorem witness_DecodeOfEncodeIsTheInstruction : (Instr.swit0 31).wf = true ∧ (Instr.hwsrc 0xFF).wf = true ∧
    (Instr.decChar 0 [1, 2, 3, 4]).wf = true ∧ (Instr.decF32 31 [⟨1, 2, 3, 4⟩]).wf = true := by decide
theorem witness_DecodedPacketKindEncodesTheFrontBytes : decode syncPattern = .ok .sync ∧
    decode [0xF8] = .ok (.swit0 31) ∧ decode [0x03, 0x2A] = .ok (.swit4 0) := ⟨rfl, rfl, rfl⟩
theorem witness_MatchFollowsThePriorityOrder :
    (0x00 : Byte) :: [0x00, 0x00, 0x00, 0x00, 0x00] ≠ [0x00, 0x00, 0x00, 0x00, 0x00, 0x80] := by decide
theorem witness_StepRunsTheDecodedInstruction : ∃ (s : State) (b : Byte) (rest : List Input) (i : Instr),
    s.input = .byte b :: rest ∧ s.cnt < 6 ∧ decode (s.buf ++ [b]) = .ok i :=
  ⟨held [0, 0, 0, 0, 0] [0x80], 0x80, [], .sync, rfl, by decide, rfl⟩
theorem witness_OverrunKeepsOnlyTheNewByte : ∃ (s : State) (b : Byte) (rest : List Input),
    s.input = .byte b :: rest ∧ s.cnt = 6 :=
  ⟨held [0x0B, 1, 2, 3, 4, 5] [0x70], 0x70, [], rfl, rfl⟩
theorem witness_EveryByteGivesOneOutcome : ∃ (s : State) (b : Byte) (rest : List Input),
    s.input = .byte b :: rest ∧ s.cnt ≤ 6 :=
  ⟨held [0x0B, 1, 2, 3, 4, 5] [0x70], 0x70, [], rfl, by decide⟩
theorem witness_BufferHoldsAtMostFiveAfterAByte : ∃ (s t : State) (b : Byte) (rest : List Input),
    s.input = .byte b :: rest ∧ s.cnt ≤ 6 ∧ step s = .next t :=
  ⟨held [0x70, 1, 2, 3, 4] [5], _, 5, [], rfl, by decide, rfl⟩
theorem witness_StepKeepsTheBufferWithinCapacity : ∃ s t : State, s.wf = true ∧ step s = .next t :=
  ⟨held [0x70, 1, 2, 3, 4] [5], _, by decide, rfl⟩
theorem witness_StepKeepsTheBufferFramed : ∃ s t : State, s.framed = true ∧ step s = .next t :=
  ⟨held [0x03, 0x2A, 0x00, 0x00] [0x00], _, by decide, rfl⟩
theorem witness_FramedBufferHoldsAtMostFour : ∃ s : State, s.framed = true ∧ s.cnt = 4 :=
  ⟨held [0x03, 0x2A, 0x00, 0x00] [], by decide, rfl⟩
theorem witness_FramedStepReportsNoOverrunNorSync : ∃ s t : State, s.framed = true ∧ step s = .next t :=
  ⟨held [] [0x00], _, by decide, rfl⟩
theorem witness_InvalidHeaderNeverNamesPortFourteen : ∃ (s t : State) (a : Addr),
    step s = .next t ∧ t.out = some (.invalidHeaderSize a) :=
  ⟨held [] [0x78], _, 15, rfl, by decide⟩
theorem witness_OutcomesFollowThePriorityOrder : ∃ (s t : State) (b h : Byte) (tail : List Byte) (rest : List Input),
    s.input = .byte b :: rest ∧ s.cnt ≤ 6 ∧ s.buf ++ [b] = h :: tail ∧ step s = .next t :=
  ⟨held [0x19] [0x01], _, 0x01, 0x19, [0x01], [], rfl, by decide, rfl, rfl⟩
theorem witness_BytesRemovedPerOutcome : ∃ (s t : State) (b : Byte) (rest : List Input),
    s.input = .byte b :: rest ∧ s.cnt ≤ 6 ∧ step s = .next t ∧ t.out = some (.sizeMismatch 1) :=
  ⟨held [0x0A, 0x01] [0x02], _, 0x02, [], rfl, by decide, rfl, by decide⟩
theorem witness_BytesRemovedPerOutcome_boundaries :
    fed [0x0B, 1, 2, 3, 4, 5] 0x70 = some (some .parseBufferOverrun, [0x70]) ∧
    fed [0x70, 1, 2, 3, 4] 5 = some (some .overflow, [1, 2, 3, 4, 5]) ∧
    fed [0x03, 1, 2] 3 = some (some (.underfull 0), [0x03, 1, 2, 3]) ∧
    fed [0x01, 1] 2 = some (some (.sizeMismatch 0), [2]) := by decide
theorem witness_DecodedValuesHaveTheConfiguredType : ∃ (s t : State) (port : Addr) (data : List TypedValue),
    step s = .next t ∧ t.out = some (.decodedValue port data) ∧ data.length = 2 :=
  ⟨held [0x12, 0x48] [0x69], _, 2, [.char 0x48, .char 0x69], rfl, by decide, rfl⟩
theorem witness_DecodedValuesHaveTheConfiguredType_word : ∃ (s t : State) (port : Addr) (data : List TypedValue),
    step s = .next t ∧ t.out = some (.decodedValue port data) ∧ s.lookup port ≠ .type .char :=
  ⟨held [0x03, 0x2A, 0x00, 0x00] [0x00], _, 0, [.u32 42], rfl, by decide, by decide⟩
theorem witness_PauseKeepsTheWholeState : ∃ s : State, s.input = [] ∧ s.cnt = 3 :=
  ⟨held [0x03, 0x2A, 0x00] [], rfl, rfl⟩
theorem witness_StepReadsOnlyTheAddressedEntry :
    ∃ (s t : State) (c : PortConfig) (b h : Byte) (rest : List Input), s.input = .byte b :: rest ∧ s.cnt ≤ 6 ∧
      (s.buf ++ [b]).head? = some h ∧ entryAt c (addrOf h) = s.lookup (addrOf h) ∧ step s = .next t ∧
      entryAt c 0 ≠ s.lookup 0 :=
  ⟨held [0x11] [0x41], _, demoCfg.set 0 .disabled, 0x41, 0x11, [], rfl, by decide, rfl, by decide, rfl, by decide⟩
theorem witness_ConstructionLoadsTheConfiguration : ∃ (s : State) (config : List CfgEntry) (rest : List Input),
    s.input = .new config :: rest ∧ config.length = 32 ∧ s.cnt = 3 :=
  ⟨{ held [0x03, 0x2A, 0x00] [] with input := [.new (List.replicate 32 (.type .char))] },
    List.replicate 32 (.type .char), [], rfl, rfl, rfl⟩
theorem witness_SignalResetLoadsEveryEntry : ∃ (s : State) (cfgI : BitVec 96) (rest : List Input),
    s.input = .rst cfgI :: rest ∧ ∀ a : Addr, (cfgI.extractLsb' (3 * a.toNat) 3).toNat < 6 :=
  ⟨{ held [] [] with input := [.rst 0x6A] }, 0x6A, [], rfl, by decide⟩
theorem witness_ConfigurationBitsRoundTrip : demoCfg.toList.length = 32 := by decide
theorem witness_MalformedConfigurationIsRefused_length : ∃ (s : State) (config : List CfgEntry) (rest : List Input),
    s.input = .new config :: rest ∧ config.length ≠ 32 :=
  ⟨{ held [] [] with input := [.new (List.replicate 31 .disabled)] }, List.replicate 31 .disabled, [], rfl, by decide⟩
theorem witness_MalformedConfigurationIsRefused_code : ∃ (s : State) (cfgI : BitVec 96) (rest : List Input) (a : Addr),
    s.input = .rst cfgI :: rest ∧ 6 ≤ (cfgI.extractLsb' (3 * a.toNat) 3).toNat :=
  ⟨{ held [] [] with input := [.rst (6 <<< 93)] }, 6 <<< 93, [], 31, rfl, by decide⟩
theorem witness_PopShiftsTheSlots : ∃ (s : State) (p n : Nat), p + n ≤ s.cnt ∧ 0 < p ∧ 0 < n ∧ s.cnt < p + (n + 4) :=
  ⟨held [0x11, 0x41, 0xAA, 0xBB] [], 1, 1, by decide, by decide, by decide, by decide⟩
/-- The two clauses where they meet: `p + n = cnt` and `p + n = cnt + 1`. -/
theorem witness_PopShiftsTheSlots_boundaries :
    1 + 3 ≤ (held [0x11, 0x41, 0xAA, 0xBB] []).cnt ∧ (held [0x11, 0x41, 0xAA, 0xBB] []).cnt = 1 + 3 ∧
    (held [0x11, 0x41, 0xAA, 0xBB] []).cnt < 1 + 4 := by decide
/-- And what `pop` gives there (R72). -/
theorem test_pop_at_the_last_slot :
    ((held [0x11, 0x41, 0xAA, 0xBB] []).pop 1 3).map (fun r => (r.1, r.2.buf)) = some ([0x41, 0xAA, 0xBB], [0x11]) ∧
    (held [0x11, 0x41, 0xAA, 0xBB] []).pop 1 4 = none := by decide
theorem witness_InstructionFrame : ∃ (i : Instr) (s t : State), exec i s = .next t ∧ t.out = some (.decodedValue 0 [.u32 1]) :=
  ⟨.swit4 0, held [0x03, 0x01, 0x00, 0x00, 0x00, 0x99] [], _, rfl, by decide⟩
theorem witness_InstructionFrame_waiting : ∃ (i : Instr) (s t : State), exec i s = .next t ∧ t.out = some (.underfull 0) :=
  ⟨.swit4 0, held [0x03, 0x01] [], _, rfl, by decide⟩
theorem witness_SyncEmptiesTheBuffer : (held syncPattern []).cnt = 6 ∧
    (held [0, 0, 0, 0, 0] [0x80]).input = .byte 0x80 :: [] := ⟨rfl, rfl⟩
theorem witness_OverflowMarkerRemovesOneByte : ∃ (s : State) (h : Byte) (tail : List Byte), s.buf = h :: tail :=
  ⟨held [0x70, 0x11] [], 0x70, [0x11], rfl⟩
theorem witness_OverflowMarkerRemovesOneByte_step : ∃ (s : State) (rest : List Input),
    s.buf = [] ∧ s.input = .byte 0x70 :: rest := ⟨held [] [0x70, 0x11], bytesIn [0x11], rfl, rfl⟩
theorem witness_HardwareSourceHeaderRemovesOneByte : ∃ (s : State) (h : Byte) (tail : List Byte), s.buf = h :: tail :=
  ⟨held [0xFF, 0x11] [], 0xFF, [0x11], rfl⟩
theorem witness_HardwareSourceHeaderRemovesOneByte_step :
    ∃ (s : State) (b h : Byte) (tail : List Byte) (rest : List Input), s.input = .byte b :: rest ∧ s.cnt < 6 ∧
      s.buf ++ [b] = h :: tail ∧ h.getLsbD 2 = true :=
  ⟨held [0x04, 1, 2, 3, 4] [5], 5, 0x04, [1, 2, 3, 4, 5], [], rfl, by decide, rfl, by decide⟩
theorem witness_InvalidHeaderRemovesOneByte : ∃ (s : State) (h : Byte) (tail : List Byte), s.buf = h :: tail :=
  ⟨held [0x08] [], 0x08, [], rfl⟩
theorem witness_AppendFillsTheFirstEmptySlot : (held [1, 2, 3, 4, 5] []).cnt < 6 := by decide
theorem witness_IncompletePacketWaits : ∃ (s : State) (b h : Byte) (tail : List Byte) (rest : List Input),
    s.input = .byte b :: rest ∧ s.buf ++ [b] = h :: tail ∧ h.toNat / 4 % 2 = 0 ∧ h.toNat % 4 ≠ 0 ∧
    s.cnt + 1 < 1 + (if h.toNat % 4 = 1 then 1 else if h.toNat % 4 = 2 then 2 else 4) :=
  ⟨held [0x03, 0x2A, 0x00] [0x00], 0x00, 0x03, [0x2A, 0x00, 0x00], [], rfl, rfl, by decide, by decide, by decide⟩
theorem witness_IncompletePacketWaits_boundaries : fed [] 0x11 = some (some (.underfull 2), [0x11]) ∧
    fed [0x12] 0x48 = some (some (.underfull 2), [0x12, 0x48]) ∧ fed [] 0xFB = some (some (.underfull 31), [0xFB]) := by decide
theorem witness_packets_waiting : (held [0x11] []).cnt < 2 ∧ (held [0x12, 0x48] []).cnt < 3 ∧
    (held [0x03, 0x2A, 0x00, 0x00] []).cnt < 5 := by decide
theorem witness_OneBytePacketCompletes : ∃ (s : State) (h p0 : Byte) (tail : List Byte), s.buf = h :: p0 :: tail :=
  ⟨held [0x11, 0x41] [], 0x11, 0x41, [], rfl⟩
theorem witness_TwoBytePacketCompletes : ∃ (s : State) (h p0 p1 : Byte) (tail : List Byte), s.buf = h :: p0 :: p1 :: tail :=
  ⟨held [0x12, 0x48, 0x69] [], 0x12, 0x48, 0x69, [], rfl⟩
theorem witness_FourBytePacketCompletes : ∃ (s : State) (h p0 p1 p2 p3 : Byte) (tail : List Byte),
    s.buf = h :: p0 :: p1 :: p2 :: p3 :: tail :=
  ⟨held [0x03, 0x2A, 0x00, 0x00, 0x00, 0x99] [], 0x03, 0x2A, 0x00, 0x00, 0x00, [0x99], rfl⟩
theorem witness_CompletionRunsTheSelectedReconstruction :
    (∃ (s : State) (h : Byte) (pl tail : List Byte), s.buf = h :: (pl ++ tail) ∧ s.lookup 2 = .type .char ∧
      pl.length % DecodeType.char.width = 0 ∧ pl.length = 1) ∧
    (∃ (s : State) (h : Byte) (pl tail : List Byte), s.buf = h :: (pl ++ tail) ∧ s.lookup 2 = .type .char ∧
      pl.length % DecodeType.char.width = 0 ∧ pl.length = 2) ∧
    (∃ (s : State) (h : Byte) (pl tail : List Byte), s.buf = h :: (pl ++ tail) ∧ s.lookup 0 = .type .u32 ∧
      pl.length % DecodeType.u32.width = 0 ∧ pl.length = 4) :=
  ⟨⟨held [0x11, 0x41] [], 0x11, [0x41], [], rfl, by decide, by decide, rfl⟩,
   ⟨held [0x12, 0x48, 0x69] [], 0x12, [0x48, 0x69], [], rfl, by decide, by decide, rfl⟩,
   ⟨held [0x03, 1, 0, 0, 0, 0x99] [], 0x03, [1, 0, 0, 0], [0x99], rfl, by decide, by decide, rfl⟩⟩
theorem witness_SplitUsesEveryPayloadByteOnce : ∃ (pl : List Byte) (w : Nat), 0 < w ∧ pl.length % w = 0 ∧ pl.length = 4 :=
  ⟨[1, 2, 3, 4], 2, by decide, by decide, rfl⟩
theorem witness_ValueRoundTrip : ∃ (t : DecodeType) (c : List Byte), c.length = t.width ∧
    decodeChunk? t c = some (.fixed16_16 0xFFFFFFFF) := ⟨.fixed16_16, [0xFF, 0xFF, 0xFF, 0xFF], rfl, by decide⟩
theorem witness_NumericProjectionIsExact : ∃ (v : TypedValue) (x : NumValue), v.val = some x ∧ x = .notANumber :=
  ⟨.f32 0x7FC00000, _, rfl, by decide +kernel⟩
theorem witness_NotANumberDrawIsUnconstrained : binary64Value 0x7FF8000000000000 = .notANumber := by decide +kernel
theorem witness_ProjectionsRefuseTheWrongVariant : (TypedValue.u32 0x41).type ≠ .char := by decide
theorem witness_RecordCarriesThePayload : ∃ (t : DecodeType) (pl : List Byte),
    (pl.length = 1 ∨ pl.length = 2 ∨ pl.length = 4) ∧ pl.length % t.width = 0 ∧ t = .f32 ∧ pl[3]? = some 0x7F ∧
      pl.length ≤ 4 :=
  ⟨.f32, [0x00, 0x00, 0xC0, 0x7F], by decide, by decide, rfl, rfl, by decide⟩
theorem witness_StreamOfPacketsDecodesPacketByPacket : ∃ (ps : List Packet) (s : State) (rest : List Input),
    (∀ p ∈ ps, p.ok = true) ∧ s.buf = [] ∧ s.input = bytesIn (streamOf ps) ++ rest ∧ ps.length = 4 :=
  ⟨[.overflow, .invalid 1, .software 0 [0x48, 0x69, 0x21, 0x0A], .hardware 0xFD],
    held [] [0x70, 0x08, 0x03, 0x48, 0x69, 0x21, 0x0A, 0xFD], [], by decide, rfl, by decide, rfl⟩
theorem witness_SyncFrameAtAnEmptyBufferIsSixInvalidHeaders : ∃ (s : State) (rest : List Input),
    s.buf = [] ∧ s.input = bytesIn syncPattern ++ rest := ⟨held [] syncPattern, [], rfl, by simp [held]⟩
theorem witness_SeededByteIsMatchedOneStepLate : ∃ (s : State) (b0 b : Byte) (rest : List Input),
    s.cnt = 6 ∧ s.input = .byte b0 :: .byte b :: rest ∧ b0 = 0x70 :=
  ⟨held [0x0B, 1, 2, 3, 4, 5] [0x70, 0x11], 0x70, 0x11, [], rfl, rfl, rfl⟩
theorem witness_SeededByteIsMatchedOneStepLate_header : ∃ (s : State) (b0 b : Byte) (rest : List Input),
    s.cnt = 6 ∧ s.input = .byte b0 :: .byte b :: rest ∧ b0 ≠ 0x70 :=
  ⟨held [0x0B, 1, 2, 3, 4, 5] [0x11, 0x41], 0x11, 0x41, [], rfl, rfl, by decide⟩
theorem witness_SignalEdgeFollowsTheBinding : ∃ (s : State) (edge pause reset : InSignals), s.cnt ≤ 6 ∧
    (edge.rst = false ∧ edge.inValid = true) ∧ (pause.rst = false ∧ pause.inValid = false) ∧ reset.rst = true :=
  ⟨held [0x0B, 1, 2, 3, 4, 5] [], ⟨false, 0, true, 0x70⟩, ⟨false, 0, false, 0⟩, ⟨true, 0x6A, true, 0⟩,
    by decide, ⟨rfl, rfl⟩, ⟨rfl, rfl⟩, rfl⟩

end Sys2Proof.Tests
end

/-! PROOFS. The match in its priority order, with the header fields read off the front byte's number (O3). -/
section
namespace Sys2Proof

/-- The address is the byte's number without its three low bits (R50). -/
theorem addrOf_eq_ofNat (h : Byte) : addrOf h = BitVec.ofNat 5 (h.toNat / 8) := by
  simp [addrOf, BitVec.extractLsb', Nat.shiftRight_eq_div_pow]

/-- The source bit is bit 2 of the byte's number (R49). -/
theorem srcOf_iff (h : Byte) : srcOf h = true ↔ h.toNat / 4 % 2 = 1 := by
  simp [srcOf, BitVec.getLsbD, Nat.testBit_eq_decide_div_mod_eq]

/-- The size code is the byte's number modulo 4 (R51). -/
theorem ssOf_eq_iff (h : Byte) (ss : BitVec 2) : ssOf h = ss ↔ h.toNat % 4 = ss.toNat := by
  simp [ssOf, ← BitVec.toNat_inj]

/-- The overflow marker is the byte with number 0x70 (R52). -/
theorem eq_overflowMarker_iff (h : Byte) : h = overflowMarker ↔ h.toNat = 0x70 := by
  simp [overflowMarker, ← BitVec.toNat_inj]

/-- A software-source header's kind follows its number modulo 4 (R56 test 4). -/
theorem decodeSoftware_eq_toNat (h : Byte) :
    decodeSoftware h =
      (if h.toNat % 4 = 0 then .swit0 (BitVec.ofNat 5 (h.toNat / 8))
       else if h.toNat % 4 = 1 then .swit1 (BitVec.ofNat 5 (h.toNat / 8))
       else if h.toNat % 4 = 2 then .swit2 (BitVec.ofNat 5 (h.toNat / 8))
       else .swit4 (BitVec.ofNat 5 (h.toNat / 8))) := by
  simp [decodeSoftware, ssOf_eq_iff, addrOf_eq_ofNat]

/-- Settles O3: off the pattern `decode_cons` leaves the front byte's tests, which the field lemmas turn into facts about
the byte's number. -/
theorem matchFollowsThePriorityOrder : Obligations.MatchFollowsThePriorityOrder := by
  unfold Obligations.MatchFollowsThePriorityOrder
  refine ⟨rfl, fun h rest hsync => ?_⟩
  rw [decode_cons h rest hsync]
  simp only [decodeHeader, eq_overflowMarker_iff, srcOf_iff, decodeSoftware_eq_toNat]

end Sys2Proof
end

/-! PROOFS. The buffer controller (41_buffer_controller.md): what a byte's step leaves and reports (O10, O9), and the
slots after `pop` and `APPEND` (O28, O29). -/
section
namespace Sys2Proof.Machine

/-! ### A byte's step -/

/-- A completed packet never reports `Unknown` (R85). -/
theorem payloadOutcome_ne_unknown (e : CfgEntry) (a : Addr) (size : Nat) (pl : List Byte) :
    payloadOutcome e a size pl ≠ .unknown := by
  unfold payloadOutcome
  cases e with
  | disabled => simp
  | type t => dsimp only; split <;> simp

/-- A byte's step answers, writing the buffer and the outcome only; the outcome is not `Unknown` and at most five bytes
stay, from any buffer (R69, R75, R90). -/
theorem feedByte_next (b : Byte) (s : State) : ∃ buf o,
    feedByte b s = .next { s with buf := buf, out := some o } ∧ o ≠ .unknown ∧ buf.length ≤ 5 := by
  obtain ⟨h, tail, hb, hcases⟩ := feedByte_cases b s
  have hcnt : s.cnt = tail.length := by simpa [State.cnt] using congrArg List.length hb
  have hsize := payloadSize_cases (ssOf h)
  obtain ⟨-, hr⟩ | ⟨-, -, hr⟩ | ⟨hroom, -, -, hr⟩ | ⟨hroom, -, -, -, hr⟩ | ⟨hroom, -, -, -, -, -, hr⟩ |
    ⟨-, -, hwait, hr⟩ | ⟨hroom, -, -, -, hr⟩ := hcases
  · exact ⟨_, _, hr, by simp, by simp⟩
  · exact ⟨_, _, hr, by simp, by simp⟩
  · exact ⟨_, _, hr, by simp, by omega⟩
  · exact ⟨_, _, hr, by simp, by omega⟩
  · exact ⟨_, _, hr, by simp, by omega⟩
  · exact ⟨_, _, hr, by simp, by rw [List.length_cons]; omega⟩
  · exact ⟨_, _, hr, payloadOutcome_ne_unknown _ _ _ _, by rw [List.length_drop]; omega⟩

/-- Settles O10: the step feeds the byte to the state without it, and `feedByte_next` says what that answers. -/
theorem everyByteGivesOneOutcome : Obligations.EveryByteGivesOneOutcome := by
  unfold Obligations.EveryByteGivesOneOutcome
  intro s b rest hin _
  obtain ⟨buf, o, hr, ho, hlen⟩ := feedByte_next b { s with input := rest }
  exact ⟨_, o, (step_byte s b rest hin).trans hr, rfl, ho, rfl, rfl, Nat.le_succ_of_le hlen⟩

/-- Settles O9: at six held bytes the step is the overrun. -/
theorem overrunKeepsOnlyTheNewByte : Obligations.OverrunKeepsOnlyTheNewByte := by
  unfold Obligations.OverrunKeepsOnlyTheNewByte
  intro s b rest hin hfull
  have hnot : ¬ State.cnt { s with input := rest } < 6 := hfull.not_lt
  rw [step_byte s b rest hin, feedByte_full b _ hnot]

/-! ### `pop` -/

/-- `pop` where its bytes are occupied (R72). -/
theorem pop_eq (s : State) (p n : Nat) (h : p + n ≤ s.cnt) :
    s.pop p n = some ((s.buf.drop p).take n, s.setBuf (s.buf.take p ++ s.buf.drop (p + n))) := if_pos h

/-- `pop` has no result beyond the occupied slots (U7). -/
theorem pop_eq_none (s : State) (p n : Nat) (h : s.cnt < p + n) : s.pop p n = none := if_neg h.not_ge

/-- Slots in front of a closed gap stay (R72). -/
theorem slot_closeGap_of_lt (s : State) (p n j : Nat) (h : p ≤ s.cnt) (hj : j < p) :
    (s.setBuf (s.buf.take p ++ s.buf.drop (p + n))).slot j = s.slot j := by
  have hlen : j < (s.buf.take p).length := by rw [List.length_take_of_le h]; exact hj
  simp only [State.slot, setBuf_buf]
  rw [List.getElem?_append_left hlen, List.getElem?_take_of_lt hj]

/-- From the gap on, slot `j` takes what slot `j + n` held (R72). -/
theorem slot_closeGap_of_le (s : State) (p n j : Nat) (h : p ≤ s.cnt) (hj : p ≤ j) :
    (s.setBuf (s.buf.take p ++ s.buf.drop (p + n))).slot j = s.slot (j + n) := by
  have hlen : (s.buf.take p).length = p := List.length_take_of_le h
  simp only [State.slot, setBuf_buf]
  rw [List.getElem?_append_right (hlen.trans_le hj), hlen, List.getElem?_drop]
  congr 1
  omega

/-- Settles O28: the taken bytes by index, the remaining slots by the two sides of the closed gap. -/
theorem popShiftsTheSlots : Obligations.PopShiftsTheSlots := by
  unfold Obligations.PopShiftsTheSlots
  refine fun s p n => ⟨fun h => ?_, pop_eq_none s p n⟩
  have hp : p ≤ s.cnt := by omega
  refine ⟨_, _, pop_eq s p n h, ?_, fun j hj => ?_, fun j => slot_closeGap_of_lt s p n j hp,
    fun j => slot_closeGap_of_le s p n j hp, ?_, rfl, rfl, rfl⟩
  · simp only [State.cnt, List.length_take, List.length_drop] at *
    omega
  · rw [List.getElem?_take_of_lt hj, List.getElem?_drop, State.slot]
  · simp only [State.cnt, setBuf_buf, List.length_append, List.length_take, List.length_drop] at *
    omega

/-! ### `APPEND` -/

/-- No slot from `cnt` on is occupied (R17, R18). -/
theorem slot_eq_none_of_cnt_le (s : State) (j : Nat) (h : s.cnt ≤ j) : s.slot j = none :=
  List.getElem?_eq_none h

/-- `APPEND` fills slot `cnt` (R71). -/
theorem slot_append_cnt (s : State) (b : Byte) : (s.append b).slot s.cnt = some b :=
  List.getElem?_concat_length

/-- `APPEND` keeps every other slot (R71). -/
theorem slot_append_of_ne (s : State) (b : Byte) (j : Nat) (h : j ≠ s.cnt) : (s.append b).slot j = s.slot j := by
  obtain hlt | hgt := Nat.lt_or_gt_of_ne h
  · exact List.getElem?_append_left hlt
  · rw [slot_eq_none_of_cnt_le s j hgt.le, slot_eq_none_of_cnt_le _ j (by rw [append_cnt]; exact hgt)]

/-- The front slot is occupied after `APPEND` (R71). -/
theorem slot_append_zero_isSome (s : State) (b : Byte) : ((s.append b).slot 0).isSome := by
  simp [State.slot]

/-- Settles O29, from the slot lemmas of `APPEND`. -/
theorem appendFillsTheFirstEmptySlot : Obligations.AppendFillsTheFirstEmptySlot := by
  unfold Obligations.AppendFillsTheFirstEmptySlot
  refine fun s b => ⟨slot_append_cnt s b, append_cnt s b, slot_append_of_ne s b, append_cfg s b, append_input s b,
    append_out s b, slot_eq_none_of_cnt_le s _ le_rfl, fun hroom => ⟨?_, ?_, slot_append_zero_isSome s b⟩⟩
  · rw [append_cnt]; omega
  · rw [append_cnt]; omega

end Sys2Proof.Machine
end

/-! PROOFS. Each packet kind on the state after the append (42_packet_kinds.md): what leaves the buffer and what is
reported (O31 to O38). -/
section
namespace Sys2Proof

/-- A front byte other than 0x00 cannot start the synchronisation pattern, so it decides the match alone (R53, R56). -/
theorem decode_cons_of_ne_zero (h : Byte) (tail : List Byte) (h0 : h ≠ 0) :
    decode (h :: tail) = .ok (decodeHeader h) :=
  decode_cons h tail fun hs => h0 (List.cons.inj hs).1

/-- Bit 2 set in the front byte selects `HWSRC`, whatever follows (R49, R56). -/
theorem decode_cons_of_hardware (h : Byte) (tail : List Byte) (hsrc : srcOf h = true) :
    decode (h :: tail) = .ok (.hwsrc h) := by
  have h0 : h ≠ 0 := by rintro rfl; exact absurd hsrc (by decide)
  have h70 : h ≠ overflowMarker := by rintro rfl; exact absurd hsrc (by decide)
  rw [decode_cons_of_ne_zero h tail h0, decodeHeader, if_neg h70, if_pos hsrc]

/-- A software-source front byte with a valid size code is matched by its size code (R56 test 4). -/
theorem decode_cons_of_software (h : Byte) (tail : List Byte) (hsrc : srcOf h = false) (hss : ssOf h ≠ 0) :
    decode (h :: tail) = .ok (decodeSoftware h) := by
  have h0 : h ≠ 0 := by rintro rfl; exact absurd hss (by decide)
  have h70 : h ≠ overflowMarker := by rintro rfl; exact absurd hss (by decide)
  rw [decode_cons_of_ne_zero h tail h0, decodeHeader, if_neg h70, if_neg (by simp [hsrc])]

/-- The declared size of a valid size code, from the byte's number (R51). -/
theorem payloadSize_ssOf_eq (h : Byte) (hss : h.toNat % 4 ≠ 0) :
    payloadSize (ssOf h) = if h.toNat % 4 = 1 then 1 else if h.toNat % 4 = 2 then 2 else 4 := by
  have hcode : h.toNat % 4 = 1 ∨ h.toNat % 4 = 2 ∨ h.toNat % 4 = 3 := by omega
  obtain h1 | h2 | h3 := hcode
  · simp [payloadSize, ssOf_eq_iff, h1]
  · simp [payloadSize, ssOf_eq_iff, h2]
  · simp [payloadSize, ssOf_eq_iff, h3]

end Sys2Proof

namespace Sys2Proof.Machine

/-- A byte's step with room in the buffer runs the instruction that the match finds after the append (R71, R73). -/
theorem step_eq_exec (s : State) (b : Byte) (rest : List Input) (i : Instr) (hin : s.input = .byte b :: rest)
    (hroom : s.cnt < 6) (hd : decode (s.buf ++ [b]) = .ok i) :
    step s = exec i { s with buf := s.buf ++ [b], input := rest } :=
  (step_byte s b rest hin).trans (feedByte_match b { s with input := rest } i hroom hd)

/-! ### The special kinds and `SWIT0` -/

/-- A kind that removes one byte leaves what stands behind the front byte (R72). -/
theorem popRaise_cons (s : State) (o : DecodeOutcome) (h : Byte) (tail : List Byte) (hb : s.buf = h :: tail) :
    (s.popFront 1 fun _ s' => s'.raise o) = .next { s with buf := tail, out := some o } := by
  rw [popRaise_eq s 1 o (by simp [State.cnt, hb]), hb, List.drop_one, List.tail_cons]

/-- `SYNC` on six held bytes (R80). -/
theorem exec_sync (s : State) (hfull : s.cnt = 6) :
    exec .sync s = .next { s with buf := [], out := some (.unsupportedPacket .sync) } := by
  rw [exec, execSync, popRaise_eq s 6 _ hfull.ge, List.drop_eq_nil_of_le hfull.le]

/-- `OVF` (R81). -/
theorem exec_ovf (s : State) (h : Byte) (tail : List Byte) (hb : s.buf = h :: tail) :
    exec .ovf s = .next { s with buf := tail, out := some .overflow } :=
  popRaise_cons s _ h tail hb

/-- `HWSRC` (R82). -/
theorem exec_hwsrc (s : State) (header h : Byte) (tail : List Byte) (hb : s.buf = h :: tail) :
    exec (.hwsrc header) s =
      .next { s with buf := tail, out := some (.unsupportedPacket (.hardwareSource header)) } :=
  popRaise_cons s _ h tail hb

/-- Settles O31: the five zeros and the byte 0x80 are the pattern, so the step is `exec_sync` on six bytes. -/
theorem syncEmptiesTheBuffer : Obligations.SyncEmptiesTheBuffer := by
  unfold Obligations.SyncEmptiesTheBuffer
  refine ⟨exec_sync, fun s rest hbuf hin => ?_⟩
  have hroom : s.cnt < 6 := by simp [State.cnt, hbuf]
  have hd : decode (s.buf ++ [0x80]) = .ok .sync := by rw [hbuf]; rfl
  rw [step_eq_exec s _ rest .sync hin hroom hd, exec_sync _ (by simp [State.cnt, hbuf])]

/-- Settles O32: on an empty buffer the marker is the front byte that `exec_ovf` removes. -/
theorem overflowMarkerRemovesOneByte : Obligations.OverflowMarkerRemovesOneByte := by
  unfold Obligations.OverflowMarkerRemovesOneByte
  refine ⟨exec_ovf, fun s rest hbuf hin => ?_⟩
  have hroom : s.cnt < 6 := by simp [State.cnt, hbuf]
  have hd : decode (s.buf ++ [0x70]) = .ok .ovf := by rw [hbuf]; rfl
  rw [step_eq_exec s _ rest .ovf hin hroom hd, exec_ovf _ 0x70 [] (by simp [hbuf]), hbuf]

/-- Settles O33: bit 2 of the front byte alone selects `HWSRC`. -/
theorem hardwareSourceHeaderRemovesOneByte : Obligations.HardwareSourceHeaderRemovesOneByte := by
  unfold Obligations.HardwareSourceHeaderRemovesOneByte
  refine ⟨fun s h => exec_hwsrc s h h, fun s b h tail rest hin hroom hbuf hsrc => ?_⟩
  have hd : decode (s.buf ++ [b]) = .ok (.hwsrc h) := by rw [hbuf, decode_cons_of_hardware h tail hsrc]
  rw [step_eq_exec s b rest _ hin hroom hd, exec_hwsrc _ h h tail hbuf]

/-- Settles O34: `SWIT0` removes one byte and looks no entry up. -/
theorem invalidHeaderRemovesOneByte : Obligations.InvalidHeaderRemovesOneByte := by
  unfold Obligations.InvalidHeaderRemovesOneByte
  exact fun s a => popRaise_cons s (.invalidHeaderSize a)

/-! ### Packets with a payload -/

/-- `SWIT1`, `SWIT2` and `SWIT4` are one rule at the header's declared size (R83, R86 to R88). -/
theorem exec_decodeSoftware (h : Byte) (s : State) (hss : ssOf h ≠ 0) :
    exec (decodeSoftware h) s = collect (addrOf h) (payloadSize (ssOf h)) s := by
  rw [decodeSoftware, if_neg hss]
  obtain ⟨h0, -⟩ | ⟨h1, hsize⟩ | ⟨h2, hsize⟩ | ⟨h3, hsize⟩ := payloadSize_cases (ssOf h)
  · exact absurd h0 hss
  · rw [if_pos h1, hsize, exec, execSwit1]
  · rw [if_neg (by rw [h2]; decide), if_pos h2, hsize, exec, execSwit2]
  · rw [if_neg (by rw [h3]; decide), if_neg (by rw [h3]; decide), hsize, exec, execSwit4]

/-- A packet in front of the buffer completes: what stands behind it stays (R85). -/
theorem collect_packet (s : State) (a : Addr) (size : Nat) (h : Byte) (pl tail : List Byte) (hlen : pl.length = size)
    (hb : s.buf = h :: (pl ++ tail)) :
    collect a size s =
      .next { s with buf := tail, out := some (payloadOutcome (s.lookup a) a size pl) } := by
  subst hlen
  have hcnt : 1 + pl.length ≤ s.cnt := by simp [State.cnt, hb]; omega
  rw [collect_completes a pl.length s hcnt, hb]
  simp [Nat.add_comm 1]

/-- The pattern of a chunk is the bit vector of its little-endian number (R96). -/
theorem le32_eq_ofNat (c : Chunk4) : le32 c =
    BitVec.ofNat 32 (c.b0.toNat + 256 * c.b1.toNat + 65536 * c.b2.toNat + 16777216 * c.b3.toNat) := by
  rw [← le32_toNat, BitVec.ofNat_toNat, BitVec.setWidth_eq]

/-- Settles O35: the header's declared size is the one that `collect` waits for. -/
theorem incompletePacketWaits : Obligations.IncompletePacketWaits := by
  unfold Obligations.IncompletePacketWaits
  intro s b h tail rest hin hbuf hbit hcode hshort
  have hsrc : srcOf h = false := by
    rw [← Bool.not_eq_true, srcOf_iff]; omega
  have hss : ssOf h ≠ 0 := by rwa [ne_eq, ssOf_eq_iff]
  rw [← payloadSize_ssOf_eq h hcode] at hshort
  have hroom : s.cnt < 6 := by have := payloadSize_cases (ssOf h); omega
  have hd : decode (s.buf ++ [b]) = .ok (decodeSoftware h) := by rw [hbuf, decode_cons_of_software h tail hsrc hss]
  rw [step_eq_exec s b rest _ hin hroom hd, exec_decodeSoftware h _ hss,
    collect_waits _ _ _ (by simpa [State.cnt] using hshort), hbuf, addrOf_eq_ofNat]

/-- Settles O36: with two bytes held the packet completes, and one byte fits the width of `Char` only. -/
theorem oneBytePacketCompletes : Obligations.OneBytePacketCompletes := by
  unfold Obligations.OneBytePacketCompletes
  refine ⟨fun s a => collect_waits a 1 s, fun s a h p0 tail hb => ?_⟩
  rw [exec, execSwit1, collect_packet s a 1 h [p0] tail rfl hb]
  cases s.lookup a with
  | disabled => rfl
  | type t => cases t <;> rfl

/-- Settles O37: with three bytes held the packet completes, and two bytes fit the width of `Char` only. -/
theorem twoBytePacketCompletes : Obligations.TwoBytePacketCompletes := by
  unfold Obligations.TwoBytePacketCompletes
  refine ⟨fun s a => collect_waits a 2 s, fun s a h p0 p1 tail hb => ?_⟩
  rw [exec, execSwit2, collect_packet s a 2 h [p0, p1] tail rfl hb]
  cases s.lookup a with
  | disabled => rfl
  | type t => cases t <;> rfl

/-- Settles O38: with five bytes held the packet completes, and four bytes fit every width; a word's pattern is `le32`
of the one chunk. -/
theorem fourBytePacketCompletes : Obligations.FourBytePacketCompletes := by
  unfold Obligations.FourBytePacketCompletes
  refine ⟨fun s a => collect_waits a 4 s, fun s a h p0 p1 p2 p3 tail hb => ?_⟩
  dsimp only
  rw [exec, execSwit4, collect_packet s a 4 h [p0, p1, p2, p3] tail rfl hb, ← le32_eq_ofNat ⟨p0, p1, p2, p3⟩]
  cases s.lookup a with
  | disabled => rfl
  | type t => cases t <;> rfl

end Sys2Proof.Machine
end

/-! PROOFS. Typed values (43_typed_values.md): the split of a payload into chunks (O45), the reconstruct operations on
their chunks (O40, O41, O43) and the projections on the wrong variant (O49). -/
section
namespace Sys2Proof.Machine

/-! ### The split of a payload -/

/-- The first `n` chunks are the first `n * w` bytes of the payload, each once and in order (R93). -/
theorem flatten_firstChunks (pl : List Byte) (w n : Nat) :
    ((List.range n).map fun k => (pl.drop (k * w)).take w).flatten = pl.take (n * w) := by
  induction n with
  | zero => simp
  | succ n ih =>
    calc ((List.range (n + 1)).map fun k => (pl.drop (k * w)).take w).flatten
        = pl.take (n * w) ++ (pl.drop (n * w)).take w := by simp [List.range_succ, ih]
      _ = pl.take ((n + 1) * w) := by rw [Nat.succ_mul, List.take_add]

/-- The split has one chunk for every whole width in the payload (R93). -/
theorem split_length (pl : List Byte) (w : Nat) : (split pl w).length = pl.length / w := by simp [split]

/-- The chunks together are the payload without the bytes that fill no chunk (R93). -/
theorem split_flatten (pl : List Byte) (w : Nat) : (split pl w).flatten = pl.take (pl.length / w * w) :=
  flatten_firstChunks pl w _

/-- Every chunk of a split has the width, also where bytes are left over (R93). -/
theorem length_of_mem_split (pl c : List Byte) (w : Nat) (hc : c ∈ split pl w) : c.length = w := by
  obtain ⟨k, hk, rfl⟩ := List.mem_map.mp hc
  have hend : (k + 1) * w ≤ pl.length :=
    (Nat.mul_le_mul_right w (List.mem_range.mp hk)).trans (Nat.div_mul_le_self _ _)
  rw [Nat.succ_mul] at hend
  exact List.length_take_of_le (by rw [List.length_drop]; omega)

/-- Settles O45: where the width divides the payload's length, no byte is left over. -/
theorem splitUsesEveryPayloadByteOnce : Obligations.SplitUsesEveryPayloadByteOnce := by
  unfold Obligations.SplitUsesEveryPayloadByteOnce
  refine fun pl w _ hdvd => ⟨split_length pl w, ?_, fun c => length_of_mem_split pl c w⟩
  rw [split_flatten, Nat.div_mul_cancel (Nat.dvd_of_mod_eq_zero hdvd), List.take_length]

/-! ### The reconstruct operations -/

/-- `DEC.CHAR` reports a value for every byte and writes the outcome only (R95). -/
theorem exec_decChar (s : State) (port : Addr) (chunks : List Byte) :
    exec (.decChar port chunks) s = .next { s with out := some (.decodedValue port (chunks.map decodeChar)) } := rfl

/-- `DEC.U32` reports a value for every chunk and writes the outcome only (R96). -/
theorem exec_decU32 (s : State) (port : Addr) (chunks : List Chunk4) :
    exec (.decU32 port chunks) s = .next { s with out := some (.decodedValue port (chunks.map decodeU32)) } := rfl

/-- `DEC.F32` reports a value for every chunk and writes the outcome only (R98). -/
theorem exec_decF32 (s : State) (port : Addr) (chunks : List Chunk4) :
    exec (.decF32 port chunks) s = .next { s with out := some (.decodedValue port (chunks.map decodeF32)) } := rfl

/-- Settles O40: the reported values are the bytes mapped by `decodeChar`, so value `k` comes from byte `k`. -/
theorem charReconstructionKeepsTheBytes : Obligations.CharReconstructionKeepsTheBytes := by
  unfold Obligations.CharReconstructionKeepsTheBytes
  refine fun s port chunks => ⟨_, exec_decChar s port chunks, List.length_map _, fun k b hk => ?_⟩
  rw [List.getElem?_map, hk, Option.map_some, decodeChar]

/-- Settles O41: the one value carries `le32` of the chunk, whose number is `le32_toNat`. -/
theorem unsignedReconstructionIsLittleEndian : Obligations.UnsignedReconstructionIsLittleEndian := by
  unfold Obligations.UnsignedReconstructionIsLittleEndian
  exact fun s port c => ⟨le32 c, exec_decU32 s port [c], le32_toNat c, rfl⟩

/-- Settles O43: the one value carries `le32` of the chunk, which is the concatenation by `le32_append`. -/
theorem floatReconstructionKeepsThePattern : Obligations.FloatReconstructionKeepsThePattern := by
  unfold Obligations.FloatReconstructionKeepsThePattern
  intro s port c
  rw [← le32_append]
  exact exec_decF32 s port [c]

/-! ### The projections -/

/-- The byte projection of every numeric variant is refused (R103). -/
theorem byte_of_type_ne_char (v : TypedValue) (hv : v.type ≠ .char) : v.byte = .error .byteProjectionOfNumeric := by
  cases v with
  | char b => exact absurd rfl hv
  | u32 p | i32 p | f32 p | fixed16_16 p => rfl

/-- Settles O49: a `Char` by the projections' first equations, a numeric value by its variant. -/
theorem projectionsRefuseTheWrongVariant : Obligations.ProjectionsRefuseTheWrongVariant := by
  unfold Obligations.ProjectionsRefuseTheWrongVariant
  exact ⟨fun _ _ => ⟨rfl, rfl, rfl⟩, byte_of_type_ne_char⟩

end Sys2Proof.Machine
end

/-! PROOFS. A completed packet's outcome by the split of its payload (43_typed_values.md R93), and a byte's outcome in
the order of 60_exceptions.md R119 (O18). -/
section
namespace Sys2Proof.Machine

/-! ### The values of a completed packet -/

/-- The first four bytes are the first chunk of a split into words (R93). -/
theorem split_four_cons (c : Chunk4) (rest : List Byte) : split (c.bytes ++ rest) 4 = c.bytes :: split rest 4 := by
  have hcount : (c.bytes ++ rest).length / 4 = rest.length / 4 + 1 := by
    rw [List.length_append, Nat.add_comm]; exact Nat.add_div_right rest.length (Nat.succ_pos 3)
  rw [split, hcount, List.range_succ_eq_map, List.map_cons, List.map_map, split]
  refine congrArg (c.bytes :: ·) (List.map_congr_left fun k _ => ?_)
  rw [Function.comp_apply, Nat.succ_mul]
  rfl

/-- The split into words is the bytes of the word chunks (R93). -/
theorem split_four (pl : List Byte) : split pl 4 = (chunks4 pl).map Chunk4.bytes := by
  induction pl using chunks4.induct with
  | case1 a b c d rest ih => rw [chunks4, List.map_cons, ← ih]; exact split_four_cons ⟨a, b, c, d⟩ rest
  | case2 pl hshort =>
    have hlen : pl.length / 4 = 0 := by
      match pl, hshort with
      | [], _ | [_], _ | [_, _], _ | [_, _, _], _ => simp
      | a :: b :: c :: d :: rest, hshort => exact absurd rfl (hshort a b c d rest)
    rw [chunks4.eq_2 pl hshort, split, hlen]
    rfl

/-- Decoding each chunk of the split gives the values of the selected reconstruct operation (R93, R95 to R99). -/
theorem filterMap_decodeChunk_split (t : DecodeType) (pl : List Byte) :
    (split pl t.width).filterMap (decodeChunk? t) = reconstructed t pl := by
  cases t with
  | char => rw [DecodeType.width, split_one, List.filterMap_map]; exact congrFun List.filterMap_eq_map pl
  | u32 | i32 | f32 | fixed16_16 =>
    rw [DecodeType.width, split_four, List.filterMap_map]
    exact congrFun List.filterMap_eq_map (chunks4 pl)

/-- The declared size is the payload's length in a packet that is whole, so R85's endings are those of
`completionOutcome`. -/
theorem payloadOutcome_length (e : CfgEntry) (a : Addr) (pl : List Byte) :
    payloadOutcome e a pl.length pl = completionOutcome e a pl := by
  cases e with
  | disabled => rfl
  | type t => rw [payloadOutcome, completionOutcome, filterMap_decodeChunk_split]

/-! ### A byte's outcome -/

/-- With room in the buffer the outcome of a byte follows from the buffer after the append, in the order of R119 from
its second item on. -/
theorem byteResult_outcome (c : PortConfig) (buf : List Byte) (b h : Byte) (tail : List Byte)
    (hb : buf ++ [b] = h :: tail) (hroom : buf.length < 6) :
    (byteResult c buf b).2 =
      if h :: tail = syncPattern then .unsupportedPacket .sync
      else if h = 0x70 then .overflow
      else if srcOf h = true then .unsupportedPacket (.hardwareSource h)
      else if ssOf h = 0 then .invalidHeaderSize (addrOf h)
      else if tail.length < payloadSize (ssOf h) then .underfull (addrOf h)
      else completionOutcome (entryAt c (addrOf h)) (addrOf h) (tail.take (payloadSize (ssOf h))) := by
  simp only [byteResult, if_pos hroom, hb, apply_ite Prod.snd]
  by_cases hwait : tail.length < payloadSize (ssOf h)
  · simp only [if_pos hwait]
  · have hlen := List.length_take_of_le (not_lt.mp hwait)
    have hpl := payloadOutcome_length (entryAt c (addrOf h)) (addrOf h) (tail.take (payloadSize (ssOf h)))
    rw [hlen] at hpl
    simp only [if_neg hwait, hpl]

/-- Settles O18: a full buffer overruns; otherwise `byteResult_outcome` has the order, and the field lemmas turn its tests
into those on the byte's number. -/
theorem outcomesFollowThePriorityOrder : Obligations.OutcomesFollowThePriorityOrder := by
  unfold Obligations.OutcomesFollowThePriorityOrder
  intro s t b h tail rest hin hcap hbuf hstep
  have hlen : s.cnt = tail.length := by simpa [State.cnt] using congrArg List.length hbuf
  obtain hroom | hfull := Nat.lt_or_eq_of_le hcap
  · rw [step_byte s b rest hin, feedByte_eq, Host.Outcome.next.injEq] at hstep
    subst hstep
    dsimp only
    rw [byteResult_outcome s.cfg s.buf b h tail hbuf hroom, if_neg hroom.ne]
    have hss : ssOf h = 0 ↔ h.toNat % 4 = 0 := ssOf_eq_iff h 0
    simp only [srcOf_iff, hss, addrOf_eq_ofNat, syncPattern, State.lookup]
    by_cases hcode : h.toNat % 4 = 0
    · simp [hcode]
    · simp only [payloadSize_ssOf_eq h hcode, hlen, Nat.add_comm _ 1, Nat.add_lt_add_iff_left]
  · rw [overrunKeepsOnlyTheNewByte s b rest hin hfull, Host.Outcome.next.injEq] at hstep
    rw [← hstep]
    exact congrArg some (if_pos hfull).symm

end Sys2Proof.Machine
end

/-! PROOFS. Construction (70_reset_and_hazards.md): what `new(config)` leaves (O24). -/
section
namespace Sys2Proof.Machine

/-- Where `CONSTRUCT` gives a configuration, construction gives its new state before the same later inputs (R127,
R130). -/
theorem construct_eq_new (config : List CfgEntry) (c : PortConfig) (s : State) (hc : construct? config = some c) :
    construct config s = .next (State.new c s.input) := by
  simp only [construct, hc]

/-- Settles O24: `CONSTRUCT` keeps each of the 32 entries, and the new state of its configuration is empty. -/
theorem constructionLoadsTheConfiguration : Obligations.ConstructionLoadsTheConfiguration := by
  unfold Obligations.ConstructionLoadsTheConfiguration
  intro s config rest hin hlen
  obtain ⟨c, hc, hentry⟩ := construct_some config hlen
  have hstep : step s = .next (State.new c rest) :=
    (step_new s config rest hin).trans (construct_eq_new config c _ hc)
  exact ⟨_, hstep, fun a => (hentry a).symm, new_buf c rest, rfl, new_out c rest, new_input c rest⟩

end Sys2Proof.Machine
end

/-! PROOFS. Instructions and their encodings, read both ways (30_encoding.md): the decoder on what the encoder writes
(O1), the encoder on what the match finds (O2), and the decoder beside the opcode table (O4 to O7). -/
section
namespace Sys2Proof

/-! ### Packet kinds -/

/-- A software-source header with a valid size code is matched by that code and keeps its address, whatever follows
(R48, R56 test 4). -/
theorem decode_softwareHeader (a : Addr) (ss : BitVec 2) (tail : List Byte) (hss : ss ≠ 0) :
    decode (softwareHeader a ss :: tail) =
      .ok (if ss = 1 then .swit1 a else if ss = 2 then .swit2 a else .swit4 a) := by
  rw [decode_cons_of_software _ tail (srcOf_softwareHeader a ss) (by rwa [ssOf_softwareHeader])]
  simp only [decodeSoftware, ssOf_softwareHeader, addrOf_softwareHeader, if_neg hss]

/-- A software-source header with size code `00` is an invalid header, unless it is the overflow marker (R52, R57). -/
theorem decodeHeader_invalid (a : Addr) (ha : a ≠ 14) : decodeHeader (softwareHeader a 0) = .swit0 a := by
  revert a; decide

/-- One byte alone is no synchronisation frame, so it decides the match (R53). -/
theorem decode_singleton (h : Byte) : decode [h] = .ok (decodeHeader h) :=
  decode_cons h [] fun hs => absurd (congrArg List.length hs) (by simp [syncPattern])

/-! ### Reconstruct operations -/

/-- A decode type's code is read back as that type (R60). -/
@[simp] theorem ofCode_type_code (t : DecodeType) : CfgEntry.ofCode? t.code = some (.type t) := by
  cases t <;> rfl

/-- The payload lengths that a size code declares (R51, R94). -/
theorem charCountOk_iff (n : Nat) : charCountOk n = true ↔ n = 1 ∨ n = 2 ∨ n = 4 := by
  simp [charCountOk, or_assoc]

/-- The size code written for a payload of 1, 2 or 4 bytes is valid and declares that payload (R51). -/
theorem payloadSize_ssOfPayload (n : Nat) (hn : charCountOk n = true) :
    ssOfPayload n ≠ 0 ∧ payloadSize (ssOfPayload n) = n := by
  obtain rfl | rfl | rfl := (charCountOk_iff n).mp hn <;> decide

/-- A completed packet with the code of a type of fitting width selects that type's reconstruct operation (R55, R63). -/
theorem decodeCompleted_softwarePacket (t : DecodeType) (a : Addr) (pl : List Byte)
    (hn : charCountOk pl.length = true) (hw : pl.length % t.width = 0) :
    decodeCompleted t.code (softwarePacket a pl) = .ok (selectDec t a pl) := by
  obtain ⟨hss, hsize⟩ := payloadSize_ssOfPayload pl.length hn
  simpa [decodeCompleted, softwarePacket, hsize, hw] using hss

/-- One chunk's packet with the code of a 4-byte type selects the operation on that chunk (R55, R63). -/
theorem decodeCompleted_oneChunk (t : DecodeType) (a : Addr) (cs : List Chunk4) (hw : t.width = 4)
    (hn : wordCountOk cs.length = true) :
    decodeCompleted t.code (softwarePacket a (cs.flatMap Chunk4.bytes)) =
      .ok (selectDec t a (cs.flatMap Chunk4.bytes)) := by
  have hlen := Laws.oneChunk_length cs hn
  exact decodeCompleted_softwarePacket t a _ (by rw [hlen]; rfl) (by rw [hlen, hw])

/-- Settles O1: a packet kind by the lemma of its header, a reconstruct operation by the packet that selects it. -/
theorem decodeOfEncodeIsTheInstruction : Obligations.DecodeOfEncodeIsTheInstruction := by
  unfold Obligations.DecodeOfEncodeIsTheInstruction
  intro i hwf
  cases i with
  | sync => rfl
  | ovf => rfl
  | hwsrc h => exact decode_cons_of_hardware h [] hwf
  | swit0 a => exact (decode_singleton _).trans (congrArg _ (decodeHeader_invalid a (by simpa [Instr.wf] using hwf)))
  | swit1 a => exact decode_softwareHeader a 1 [] (by decide)
  | swit2 a => exact decode_softwareHeader a 2 [] (by decide)
  | swit4 a => exact decode_softwareHeader a 3 [] (by decide)
  | decChar a cs => exact decodeCompleted_softwarePacket .char a cs hwf (Nat.mod_one _)
  | decU32 a cs =>
    rw [encode, decodeEncoding, decodeCompleted_oneChunk .u32 a cs rfl hwf, selectDec, Machine.chunks4_bytes]
  | decI32 a cs =>
    rw [encode, decodeEncoding, decodeCompleted_oneChunk .i32 a cs rfl hwf, selectDec, Machine.chunks4_bytes]
  | decF32 a cs =>
    rw [encode, decodeEncoding, decodeCompleted_oneChunk .f32 a cs rfl hwf, selectDec, Machine.chunks4_bytes]
  | decQ16 a cs =>
    rw [encode, decodeEncoding, decodeCompleted_oneChunk .fixed16_16 a cs rfl hwf, selectDec, Machine.chunks4_bytes]

/-- What the front byte decides is well-formed and encoded by that byte (R48 to R52). -/
theorem encode_decodeHeader (h : Byte) :
    (decodeHeader h).wf = true ∧ encode (decodeHeader h) = .stream [h] := by
  have hfields : ∀ ss, srcOf h = false → ssOf h = ss → softwareHeader (addrOf h) ss = h := by
    rintro ss hsrc rfl; exact softwareHeader_fields h hsrc
  obtain ⟨rfl, hd⟩ | ⟨-, hsrc, hd⟩ | ⟨-, hsrc, hss, ha, hd⟩ | ⟨hsrc, hss, hd⟩ | ⟨hsrc, hss, hd⟩ | ⟨hsrc, hss, hd⟩ :=
    decodeHeader_cases h
  · exact ⟨rfl, rfl⟩
  · rw [hd]; exact ⟨hsrc, rfl⟩
  · rw [hd, encode, hfields 0 hsrc hss]; exact ⟨bne_iff_ne.mpr ha, rfl⟩
  · rw [hd, encode, hfields 1 hsrc hss]; exact ⟨rfl, rfl⟩
  · rw [hd, encode, hfields 2 hsrc hss]; exact ⟨rfl, rfl⟩
  · rw [hd, encode, hfields 3 hsrc hss]; exact ⟨rfl, rfl⟩

/-- Settles O2: the match finds the pattern itself, or what the front byte decides. -/
theorem decodedPacketKindEncodesTheFrontBytes : Obligations.DecodedPacketKindEncodesTheFrontBytes := by
  unfold Obligations.DecodedPacketKindEncodesTheFrontBytes
  intro buf i hdec
  cases buf with
  | nil => cases hdec
  | cons h tail =>
    obtain ⟨hsync, hd⟩ | ⟨-, hd⟩ := decode_some h tail
    · rw [hd, Except.ok.injEq] at hdec
      subst hdec
      exact ⟨rfl, syncPattern, [], rfl, hsync⟩
    · rw [hd, Except.ok.injEq] at hdec
      subst hdec
      obtain ⟨hwf, henc⟩ := encode_decodeHeader h
      exact ⟨hwf, [h], tail, henc, rfl⟩

/-! ### The tables -/

/-- Settles O4: the counts over the 256 byte values. -/
theorem frontBytesPartitionByKind : Obligations.FrontBytesPartitionByKind := by
  unfold Obligations.FrontBytesPartitionByKind
  decide +kernel

/-- The first matching row of a byte agrees with the decoder on it (R63). -/
theorem firstMatchingRow_agrees (h : Byte) : (headerRows.find? (·.hits h)).any (fun r =>
    (decodeHeader h).kind? = some r.kind ∧ (decodeHeader h).length = r.length ∧ r.length = 1 + r.payload) = true := by
  revert h; decide

/-- Settles O5: the rows' order is read off the list, and `firstMatchingRow_agrees` gives the row of each byte. -/
theorem decoderTakesTheFirstMatchingTableRow : Obligations.DecoderTakesTheFirstMatchingTableRow := by
  unfold Obligations.DecoderTakesTheFirstMatchingTableRow
  refine ⟨by decide, fun h => ?_⟩
  obtain ⟨r, hr, hagrees⟩ := Option.any_eq_true _ _ |>.mp (firstMatchingRow_agrees h)
  exact ⟨r, hr, of_decide_eq_true hagrees⟩

/-- Every configuration entry is read back from its code (R60). -/
@[simp] theorem ofCode_code (e : CfgEntry) : CfgEntry.ofCode? e.code = some e := by
  cases e with
  | disabled => rfl
  | type t => exact ofCode_type_code t

/-- Exactly the codes 6 and 7 are reserved (R60). -/
theorem ofCode_eq_none_iff (c : BitVec 3) : CfgEntry.ofCode? c = none ↔ 6 ≤ c.toNat := by
  revert c; decide

/-- Settles O6: the codes and widths by their tables, the read-back by `ofCode_code` and `ofCode_eq_none_iff`. -/
theorem configurationCodesNameTheSixEntries : Obligations.ConfigurationCodesNameTheSixEntries := by
  unfold Obligations.ConfigurationCodesNameTheSixEntries
  exact ⟨rfl, rfl, rfl, rfl, rfl, rfl, rfl, rfl, rfl, rfl, rfl, ofCode_code, ofCode_eq_none_iff⟩

/-- Settles O7: the decoder computes on each sample. -/
theorem sampleWordsDecode : Obligations.SampleWordsDecode := by
  unfold Obligations.SampleWordsDecode
  exact ⟨rfl, rfl, rfl, rfl, rfl, rfl, rfl, rfl, rfl, rfl, rfl, rfl⟩

end Sys2Proof
end

/-! PROOFS. A step by the caller's next input (41_buffer_controller.md): the step as the decoded instruction or a
pause (O8, O21), what it does not read (O22, O23), and the two invariants of the buffer (O11 to O16). -/
section
namespace Sys2Proof.Machine

/-! ### What a step can be -/

/-- Settles O8, which is `step_eq_exec`. -/
theorem stepRunsTheDecodedInstruction : Obligations.StepRunsTheDecodedInstruction := by
  unfold Obligations.StepRunsTheDecodedInstruction
  exact step_eq_exec

/-- Settles O21, which is `step_pause`. -/
theorem pauseKeepsTheWholeState : Obligations.PauseKeepsTheWholeState := by
  unfold Obligations.PauseKeepsTheWholeState
  exact step_pause

/-- A construction that answers gives a new decoder before the same later inputs (R127, R130). -/
theorem construct_next (config : List CfgEntry) (s t : State) (h : construct config s = .next t) :
    ∃ c, t = State.new c s.input := by
  unfold construct at h
  split at h
  · exact ⟨_, (Host.Outcome.next.inj h).symm⟩
  · cases h

/-- `rst` that answers gives a new decoder before the same later inputs (R8). -/
theorem constructBits_next (cfgI : BitVec 96) (s t : State) (h : constructBits cfgI s = .next t) :
    ∃ c, t = State.new c s.input := by
  unfold constructBits at h
  split at h
  · exact construct_next _ s t h
  · cases h

/-- Everything a step that answers can be: a pause, a byte's step, or a new decoder (R74, R125, R127). -/
theorem step_next_cases (s t : State) (h : step s = .next t) :
    (s.input = [] ∧ t = { s with out := none }) ∨
    (∃ b rest, s.input = .byte b :: rest ∧ feedByte b { s with input := rest } = .next t) ∨
    ∃ c rest, t = State.new c rest := by
  match hin : s.input with
  | [] =>
    rw [step_pause s hin, Host.Outcome.next.injEq] at h
    exact .inl ⟨rfl, by rw [← h, hin]⟩
  | .byte b :: rest => exact .inr (.inl ⟨b, rest, rfl, by rw [← step_byte s b rest hin]; exact h⟩)
  | .new config :: rest =>
    rw [step_new s config rest hin] at h
    obtain ⟨c, ht⟩ := construct_next config _ t h
    exact .inr (.inr ⟨c, rest, ht⟩)
  | .rst cfgI :: rest =>
    rw [step_rst s cfgI rest hin] at h
    obtain ⟨c, ht⟩ := constructBits_next cfgI _ t h
    exact .inr (.inr ⟨c, rest, ht⟩)

/-- A step that reports an outcome is a byte's step (R24). -/
theorem step_byte_of_out (s t : State) (o : DecodeOutcome) (h : step s = .next t) (ho : t.out = some o) :
    ∃ b rest, s.input = .byte b :: rest ∧ feedByte b { s with input := rest } = .next t := by
  obtain ⟨-, rfl⟩ | hbyte | ⟨c, rest, rfl⟩ := step_next_cases s t h
  · cases ho
  · exact hbyte
  · cases ho

/-! ### What a byte's step reads -/

/-- A byte's step does not read the previous outcome (R24). -/
theorem feedByte_withOut (b : Byte) (s : State) (o : Option DecodeOutcome) :
    feedByte b (s.withOut o) = feedByte b s := by
  rw [feedByte_eq, feedByte_eq]; rfl

/-- Settles O22: a byte by `feedByte_withOut`; a pause writes the outcome, a construction keeps the inputs only. -/
theorem previousOutcomeIsNotRead : Obligations.PreviousOutcomeIsNotRead := by
  unfold Obligations.PreviousOutcomeIsNotRead
  intro s o
  match hin : s.input with
  | [] => rw [step_pause s hin, step_pause (s.withOut o) hin]; rfl
  | .byte b :: rest =>
    rw [step_byte s b rest hin, step_byte (s.withOut o) b rest hin]
    exact feedByte_withOut b { s with input := rest } o
  | .new config :: rest => rw [step_new s config rest hin, step_new (s.withOut o) config rest hin]; rfl
  | .rst cfgI :: rest => rw [step_rst s cfgI rest hin, step_rst (s.withOut o) cfgI rest hin]; rfl

/-- What a byte gives depends on the configuration only through the entry of the front header's port (R43). -/
theorem byteResult_congr (c c' : PortConfig) (buf : List Byte) (b h : Byte) (hfront : (buf ++ [b]).head? = some h)
    (hentry : entryAt c (addrOf h) = entryAt c' (addrOf h)) : byteResult c buf b = byteResult c' buf b := by
  obtain ⟨tail, hb⟩ := List.head?_eq_some_iff.mp hfront
  simp only [byteResult, hb, hentry]

/-- Settles O23: `byteResult_congr` at the two configurations. -/
theorem stepReadsOnlyTheAddressedEntry : Obligations.StepReadsOnlyTheAddressedEntry := by
  unfold Obligations.StepReadsOnlyTheAddressedEntry
  intro s t c b h rest hin _ hfront hentry hstep
  rw [step_byte s b rest hin, feedByte_eq, Host.Outcome.next.injEq] at hstep
  rw [step_byte (s.withCfg c) b rest hin, feedByte_eq, ← hstep]
  simp only [State.withCfg, byteResult_congr c s.cfg s.buf b h hfront hentry]

/-! ### The buffer stays within its slots -/

/-- The state of a byte's step holds at most five bytes, from any buffer (R75). -/
theorem feedByte_cnt_le (b : Byte) (s t : State) (h : feedByte b s = .next t) : t.cnt ≤ 5 := by
  obtain ⟨buf, o, hr, -, hlen⟩ := feedByte_next b s
  rw [hr, Host.Outcome.next.injEq] at h
  subst h
  exact hlen

/-- Settles O11, which is `feedByte_cnt_le` at the step of a byte. -/
theorem bufferHoldsAtMostFiveAfterAByte : Obligations.BufferHoldsAtMostFiveAfterAByte := by
  unfold Obligations.BufferHoldsAtMostFiveAfterAByte
  intro s t b rest hin _ hstep
  exact feedByte_cnt_le b { s with input := rest } t (by rw [← step_byte s b rest hin]; exact hstep)

/-- Settles O12: a pause keeps the buffer, a byte leaves at most five bytes, and a new decoder holds none. -/
theorem stepKeepsTheBufferWithinCapacity : Obligations.StepKeepsTheBufferWithinCapacity := by
  unfold Obligations.StepKeepsTheBufferWithinCapacity
  intro s t hwf hstep
  obtain ⟨-, rfl⟩ | ⟨b, rest, -, hbyte⟩ | ⟨c, rest, rfl⟩ := step_next_cases s t hstep
  · exact hwf
  · exact (wf_iff t).mpr (Nat.le_succ_of_le (feedByte_cnt_le b _ t hbyte))
  · exact new_wf c rest

/-! ### The buffer stays framed -/

/-- A new decoder is idle (R77, R127). -/
theorem new_framed (c : PortConfig) (input : List Input) : (State.new c input).framed = true := rfl

/-- Settles O14: a new decoder's buffer is empty. -/
theorem constructedDecoderIsEmptyAndFramed : Obligations.ConstructedDecoderIsEmptyAndFramed := by
  unfold Obligations.ConstructedDecoderIsEmptyAndFramed
  exact ⟨fun c input => ⟨rfl, rfl, fun i => slot_eq_none_of_cnt_le _ i i.zero_le, rfl, new_wf c input,
    new_framed c input⟩, new_wf _ _, new_framed _ _⟩

/-- Settles O15: a collected packet has at most three of its four payload bytes. -/
theorem framedBufferHoldsAtMostFour : Obligations.FramedBufferHoldsAtMostFour := by
  unfold Obligations.FramedBufferHoldsAtMostFour
  intro s hframed
  obtain hempty | ⟨h, pl, hb, -, -, hlen⟩ := (framed_iff s).mp hframed
  · simp [State.cnt, hempty]
  · have hsize := payloadSize_cases (ssOf h)
    rw [State.cnt, hb, List.length_cons]
    omega

/-- A byte appended to a framed buffer is its first one, or belongs to the packet whose header stands in front (R77). -/
theorem framed_append (s : State) (b h : Byte) (tail : List Byte) (hframed : s.framed = true)
    (hb : s.buf ++ [b] = h :: tail) :
    tail = [] ∨ (srcOf h = false ∧ ssOf h ≠ 0 ∧ tail.length ≤ payloadSize (ssOf h)) := by
  obtain hempty | ⟨h', pl, hbuf, hsrc, hss, hlen⟩ := (framed_iff s).mp hframed
  · rw [hempty, List.nil_append, List.cons.injEq] at hb
    exact .inl hb.2.symm
  · rw [hbuf, List.cons_append, List.cons.injEq] at hb
    obtain ⟨rfl, rfl⟩ := hb
    exact .inr ⟨hsrc, hss, by rw [List.length_append]; exact hlen⟩

/-- A completed packet reports a disabled port, a size mismatch, or the values of its port's type (R85). -/
theorem payloadOutcome_cases (e : CfgEntry) (a : Addr) (size : Nat) (pl : List Byte) :
    payloadOutcome e a size pl = .unconfiguredPort a ∨ payloadOutcome e a size pl = .sizeMismatch a ∨
    ∃ t, e = .type t ∧ size % t.width = 0 ∧ payloadOutcome e a size pl = .decodedValue a (reconstructed t pl) := by
  cases e with
  | disabled => exact .inl rfl
  | type t =>
    by_cases hw : size % t.width = 0
    · exact .inr (.inr ⟨t, rfl, hw, if_neg (not_not.mpr hw)⟩)
    · exact .inr (.inl (if_pos hw))

/-- From a framed buffer a byte's step leaves a framed buffer and reports no overrun and no synchronisation frame
(R77). -/
theorem feedByte_framed (b : Byte) (s t : State) (hframed : s.framed = true) (hstep : feedByte b s = .next t) :
    t.framed = true ∧ t.out ≠ some .parseBufferOverrun ∧ t.out ≠ some (.unsupportedPacket .sync) := by
  have hcap := framedBufferHoldsAtMostFour s hframed
  obtain ⟨h, tail, hb, hcases⟩ := feedByte_cases b s
  have hfront := framed_append s b h tail hframed hb
  have hcnt : s.cnt = tail.length := by simpa [State.cnt] using congrArg List.length hb
  have hone : h = 0x70 ∨ srcOf h = true ∨ ssOf h = 0 → tail = [] := by
    rintro hkind
    refine hfront.resolve_right ?_
    rintro ⟨hsrc, hss, -⟩
    obtain rfl | hsrc' | hss' := hkind
    · exact hss rfl
    · rw [hsrc'] at hsrc; cases hsrc
    · exact hss hss'
  obtain ⟨hfull, -⟩ | ⟨hfive, -⟩ | ⟨-, -, h70, hr⟩ | ⟨-, -, -, hsrc, hr⟩ | ⟨-, -, -, -, hss, -, hr⟩ |
    ⟨hsrc, hss, hwait, hr⟩ | ⟨-, -, -, hwhole, hr⟩ := hcases
  · omega
  · omega
  all_goals
    rw [hr, Host.Outcome.next.injEq] at hstep
    subst hstep
  · exact ⟨(framed_iff _).mpr (.inl (hone (.inl h70))), by simp, by simp⟩
  · exact ⟨(framed_iff _).mpr (.inl (hone (.inr (.inl hsrc)))), by simp, by simp⟩
  · exact ⟨(framed_iff _).mpr (.inl (hone (.inr (.inr hss)))), by simp, by simp⟩
  · exact ⟨(framed_iff _).mpr (.inr ⟨h, tail, rfl, hsrc, hss, hcnt ▸ hwait⟩), by simp, by simp⟩
  · have hnil : tail.drop (payloadSize (ssOf h)) = [] := by
      obtain rfl | ⟨-, -, hlen⟩ := hfront
      · exact List.drop_nil
      · exact List.drop_eq_nil_of_le hlen
    refine ⟨(framed_iff _).mpr (.inl hnil), ?_⟩
    obtain ho | ho | ⟨_, -, -, ho⟩ := payloadOutcome_cases (s.lookup (addrOf h)) (addrOf h)
      (payloadSize (ssOf h)) (tail.take (payloadSize (ssOf h)))
    all_goals
      dsimp only
      rw [ho]
      exact ⟨by simp, by simp⟩

/-- Settles O13: a pause keeps the buffer, `feedByte_framed` is the byte's case, and a new decoder is idle. -/
theorem stepKeepsTheBufferFramed : Obligations.StepKeepsTheBufferFramed := by
  unfold Obligations.StepKeepsTheBufferFramed
  intro s t hframed hstep
  obtain ⟨-, rfl⟩ | ⟨b, rest, -, hbyte⟩ | ⟨c, rest, rfl⟩ := step_next_cases s t hstep
  · exact hframed
  · exact (feedByte_framed b { s with input := rest } t hframed hbyte).1
  · exact new_framed c rest

/-- Settles O16: only a byte's step reports an outcome; `feedByte_framed` excludes two of the three, `feedByte_next` the
third. -/
theorem framedStepReportsNoOverrunNorSync : Obligations.FramedStepReportsNoOverrunNorSync := by
  unfold Obligations.FramedStepReportsNoOverrunNorSync
  intro s t hframed hstep
  obtain ⟨-, rfl⟩ | ⟨b, rest, -, hbyte⟩ | ⟨c, rest, rfl⟩ := step_next_cases s t hstep
  · simp
  · obtain ⟨-, hoverrun, hsync⟩ := feedByte_framed b { s with input := rest } t hframed hbyte
    obtain ⟨buf, o, hr, ho, -⟩ := feedByte_next b { s with input := rest }
    rw [hr, Host.Outcome.next.injEq] at hbyte
    subst hbyte
    exact ⟨hoverrun, hsync, fun hunknown => ho (Option.some.inj hunknown)⟩
  · simp

end Sys2Proof.Machine
end

/-! PROOFS. What a byte's outcome says of the buffer and of the port (41_buffer_controller.md, 43_typed_values.md): O17,
O19, O20; and what each instruction leaves unchanged (O30, O39). -/
section
namespace Sys2Proof.Machine

/-! ### The values of a completed packet -/

/-- A reconstruct operation gives one value for every whole width in the payload (R93). -/
theorem reconstructed_length (t : DecodeType) (pl : List Byte) :
    (reconstructed t pl).length = pl.length / t.width := by
  have hwords : (chunks4 pl).length = pl.length / 4 := by
    rw [← split_length pl 4, split_four, List.length_map]
  cases t with
  | char => simp [reconstructed, DecodeType.width]
  | u32 | i32 | f32 | fixed16_16 => rw [reconstructed, List.length_map, hwords, DecodeType.width]

/-- Every value of a reconstruct operation is of its type (R91). -/
theorem allOfType_reconstructed (t : DecodeType) (pl : List Byte) : allOfType t (reconstructed t pl) := by
  intro v hv
  cases t with
  | char | u32 | i32 | f32 | fixed16_16 =>
    obtain ⟨c, -, rfl⟩ := List.mem_map.mp hv
    rfl

/-- A value is one byte or four (R92). -/
theorem width_cases (t : DecodeType) : (t = .char ∧ t.width = 1) ∨ (t ≠ .char ∧ t.width = 4) := by
  cases t <;> simp [DecodeType.width]

/-! ### What the outcome says -/

/-- The outcomes that a step can report from `s`, `h` the front byte after the append and `tail` what stands behind it
(R107, R119). -/
inductive Reported (s : State) (h : Byte) (tail : List Byte) : DecodeOutcome → Prop
  | overrun : Reported s h tail .parseBufferOverrun
  | sync : Reported s h tail (.unsupportedPacket .sync)
  | overflow : Reported s h tail .overflow
  | hardware : Reported s h tail (.unsupportedPacket (.hardwareSource h))
  | invalid (ha : addrOf h ≠ 14) : Reported s h tail (.invalidHeaderSize (addrOf h))
  | waiting : Reported s h tail (.underfull (addrOf h))
  | disabled : Reported s h tail (.unconfiguredPort (addrOf h))
  | mismatch : Reported s h tail (.sizeMismatch (addrOf h))
  | value (ty : DecodeType) (hty : s.lookup (addrOf h) = .type ty) (hss : ssOf h ≠ 0)
      (hwhole : payloadSize (ssOf h) ≤ tail.length) (hw : payloadSize (ssOf h) % ty.width = 0) :
      Reported s h tail (.decodedValue (addrOf h) (reconstructed ty (tail.take (payloadSize (ssOf h)))))

/-- Every outcome of a step is one of these (R107, R119). -/
theorem reported_of_step (s t : State) (o : DecodeOutcome) (hstep : step s = .next t) (hout : t.out = some o) :
    ∃ h tail, Reported s h tail o := by
  obtain ⟨b, rest, -, hbyte⟩ := step_byte_of_out s t o hstep hout
  obtain ⟨h, tail, hb, hcases⟩ := feedByte_cases b { s with input := rest }
  have hcnt : s.cnt = tail.length := by simpa [State.cnt] using congrArg List.length hb
  refine ⟨h, tail, ?_⟩
  obtain ⟨-, hr⟩ | ⟨-, -, hr⟩ | ⟨-, -, -, hr⟩ | ⟨-, -, -, -, hr⟩ | ⟨-, -, -, -, -, ha, hr⟩ | ⟨-, -, -, hr⟩ |
    ⟨-, -, hss, hwhole, hr⟩ := hcases
  all_goals
    rw [hr, Host.Outcome.next.injEq] at hbyte
    subst hbyte
    obtain rfl := Option.some.inj hout
  · exact .overrun
  · exact .sync
  · exact .overflow
  · exact .hardware
  · exact .invalid ha
  · exact .waiting
  · obtain ho | ho | ⟨ty, hty, hw, ho⟩ := payloadOutcome_cases (State.lookup { s with input := rest } (addrOf h))
      (addrOf h) (payloadSize (ssOf h)) (tail.take (payloadSize (ssOf h))) <;> rw [ho]
    · exact .disabled
    · exact .mismatch
    · exact .value ty hty hss (hcnt ▸ hwhole) hw

/-- Settles O17: an invalid header is reported in the one case whose address is not 14. -/
theorem invalidHeaderNeverNamesPortFourteen : Obligations.InvalidHeaderNeverNamesPortFourteen := by
  unfold Obligations.InvalidHeaderNeverNamesPortFourteen
  intro s t a hstep hout
  obtain ⟨h, tail, hreported⟩ := reported_of_step s t _ hstep hout
  cases hreported with
  | invalid ha => exact ha

/-- Settles O20: values are reported in the one case of a completed packet, whose declared size fits the width of its
port's type. -/
theorem decodedValuesHaveTheConfiguredType : Obligations.DecodedValuesHaveTheConfiguredType := by
  unfold Obligations.DecodedValuesHaveTheConfiguredType
  intro s t port data hstep hout
  obtain ⟨h, tail, hreported⟩ := reported_of_step s t _ hstep hout
  cases hreported with
  | value ty hty hss hwhole hw =>
    have hcount := reconstructed_length ty (tail.take (payloadSize (ssOf h)))
    rw [List.length_take_of_le hwhole] at hcount
    refine ⟨ty, hty, allOfType_reconstructed ty _, ?_⟩
    have hsize := (payloadSize_cases (ssOf h)).resolve_left fun h0 => hss h0.1
    obtain ⟨hchar, hwidth⟩ | ⟨hword, hwidth⟩ := width_cases ty <;> rw [hwidth] at hw hcount
    · exact ⟨fun _ => by omega, fun hne => absurd hchar hne⟩
    · exact ⟨fun heq => absurd heq hword, fun _ => by omega⟩

/-- Settles O19: each case of `feedByte_cases` is a row of the table; a completed packet has three outcomes and one
effect on the buffer. -/
theorem bytesRemovedPerOutcome : Obligations.BytesRemovedPerOutcome := by
  unfold Obligations.BytesRemovedPerOutcome
  intro s t b rest hin hcap hstep
  rw [step_byte s b rest hin] at hstep
  obtain ⟨h, tail, hb, hcases⟩ := feedByte_cases b { s with input := rest }
  have hb' : s.buf ++ [b] = h :: tail := hb
  have hcnt : s.cnt = tail.length := by simpa [State.cnt] using congrArg List.length hb
  have hsize := payloadSize_cases (ssOf h)
  obtain ⟨hfull, hr⟩ | ⟨hfive, -, hr⟩ | ⟨hroom, -, -, hr⟩ | ⟨hroom, -, -, -, hr⟩ | ⟨hroom, -, -, -, -, -, hr⟩ |
    ⟨-, -, hwait, hr⟩ | ⟨-, -, hss, hwhole, hr⟩ := hcases
  all_goals
    rw [hr, Host.Outcome.next.injEq] at hstep
    subst hstep
    rw [hb']
  · exact ⟨le_antisymm hcap hfull, rfl, rfl⟩
  · exact ⟨hfive, rfl, rfl⟩
  · exact ⟨Nat.le_of_lt_succ hroom, rfl, hcnt.symm⟩
  · exact ⟨Nat.le_of_lt_succ hroom, rfl, hcnt.symm⟩
  · exact ⟨Nat.le_of_lt_succ hroom, rfl, hcnt.symm⟩
  · have hwait' : s.cnt < payloadSize (ssOf h) := hwait
    exact ⟨by omega, rfl, by rw [hcnt]; rfl⟩
  · have hdrop : (tail.drop (payloadSize (ssOf h))) = (h :: tail).drop (1 + payloadSize (ssOf h)) := by
      rw [Nat.add_comm, List.drop_succ_cons]
    have hleft : (tail.drop (payloadSize (ssOf h))).length = s.cnt - payloadSize (ssOf h) := by
      rw [List.length_drop, hcnt]
    have hvalid : payloadSize (ssOf h) = 1 ∨ payloadSize (ssOf h) = 2 ∨ payloadSize (ssOf h) = 4 := by
      have := hsize.resolve_left fun h0 => hss h0.1
      omega
    dsimp only
    obtain hp | hp | ⟨_, -, -, hp⟩ := payloadOutcome_cases (s.lookup (addrOf h)) (addrOf h)
      (payloadSize (ssOf h)) (tail.take (payloadSize (ssOf h)))
    all_goals
      rw [State.lookup] at hp
      simp only [State.lookup, hp]
      exact ⟨h, rfl, hvalid, hwhole, hdrop, hleft⟩

/-! ### What an instruction leaves unchanged -/

/-- The outcomes of an instruction that does not wait. -/
def DecodeOutcome.endsPacket (o : DecodeOutcome) : Prop :=
  o ≠ .unknown ∧ o ≠ .parseBufferOverrun ∧ ∀ a, o ≠ .underfull a

/-- The frame of an instruction that moves `n` bytes, or waits (R89, R120): the conclusion of O30 at its length. -/
def FrameOfLength (n : Nat) (s t : State) : Prop :=
  t.cfg = s.cfg ∧ t.input = s.input ∧ ∃ o, t.out = some o ∧ o ≠ .unknown ∧ o ≠ .parseBufferOverrun ∧
    ((∃ a, o = .underfull a ∧ t.buf = s.buf) ∨
     ((∀ a, o ≠ .underfull a) ∧ n ≤ s.cnt ∧ t.buf = s.buf.drop n))

/-- Removing `n` held bytes and ending the packet meets the frame. -/
theorem frame_of_removal (s : State) (n : Nat) (o : DecodeOutcome) (hn : n ≤ s.cnt) (ho : o.endsPacket) :
    FrameOfLength n s { s with buf := s.buf.drop n, out := some o } := by
  obtain ⟨hunknown, hoverrun, hwait⟩ := ho
  exact ⟨rfl, rfl, o, rfl, hunknown, hoverrun, .inr ⟨hwait, hn, rfl⟩⟩

/-- A kind that removes `n` bytes and reports an outcome meets the frame (R80 to R82, R84). -/
theorem frame_of_popRaise (s t : State) (n : Nat) (o : DecodeOutcome) (ho : o.endsPacket)
    (h : (s.popFront n fun _ s' => s'.raise o) = .next t) : FrameOfLength n s t := by
  obtain ⟨hn, rfl⟩ := popRaise_next s t n o h
  exact frame_of_removal s n o hn ho

/-- Every outcome of a completed packet ends it (R85). -/
theorem payloadOutcome_endsPacket (e : CfgEntry) (a : Addr) (size : Nat) (pl : List Byte) :
    (payloadOutcome e a size pl).endsPacket := by
  obtain ho | ho | ⟨_, -, -, ho⟩ := payloadOutcome_cases e a size pl <;> rw [ho] <;> simp [DecodeOutcome.endsPacket]

/-- A packet with a valid size code meets the frame, waiting or complete (R86 to R89). -/
theorem frame_of_collect (s t : State) (a : Addr) (size : Nat) (h : collect a size s = .next t) :
    FrameOfLength (1 + size) s t := by
  obtain ⟨-, hr⟩ | ⟨hwhole, hr⟩ := collect_cases a size s
  all_goals
    rw [hr, Host.Outcome.next.injEq] at h
    subst h
  · exact ⟨rfl, rfl, .underfull a, rfl, by simp, by simp, .inl ⟨a, rfl, rfl⟩⟩
  · exact frame_of_removal s _ _ hwhole (payloadOutcome_endsPacket _ a size _)

/-- A reconstruct operation moves no byte (R95 to R99). -/
theorem frame_of_deliver (s t : State) (port : Addr) (data : List TypedValue) (h : s.deliver port data = .next t) :
    FrameOfLength 0 s t := by
  obtain rfl := Host.Outcome.next.inj h
  exact frame_of_removal s 0 (.decodedValue port data) (Nat.zero_le _) (by simp [DecodeOutcome.endsPacket])

/-- Settles O30: each instruction is one of the three shapes. -/
theorem instructionFrame : Obligations.InstructionFrame := by
  unfold Obligations.InstructionFrame
  intro i s t h
  cases i with
  | sync | ovf | hwsrc header | swit0 a => exact frame_of_popRaise s t _ _ (by simp [DecodeOutcome.endsPacket]) h
  | swit1 a | swit2 a | swit4 a => exact frame_of_collect s t a _ h
  | decChar port cs | decU32 port cs | decI32 port cs | decF32 port cs | decQ16 port cs =>
    exact frame_of_deliver s t port _ h

/-- The operation that a type selects reports the values it reconstructs, and writes the outcome only (R63). -/
theorem exec_selectDec (t : DecodeType) (a : Addr) (pl : List Byte) (s : State) :
    exec (selectDec t a pl) s = .next { s with out := some (.decodedValue a (reconstructed t pl)) } := by
  cases t <;> rfl

/-- Settles O39: at each size the packet in front completes with its port's values, as the selected operation reports
them. -/
theorem completionRunsTheSelectedReconstruction : Obligations.CompletionRunsTheSelectedReconstruction := by
  unfold Obligations.CompletionRunsTheSelectedReconstruction
  intro s a t h pl tail hb hlookup hw
  have hrun : ∀ size, pl.length = size → collect a size s = exec (selectDec t a pl) { s with buf := tail } := by
    rintro size rfl
    rw [collect_packet s a pl.length h pl tail rfl hb, exec_selectDec, hlookup, payloadOutcome,
      if_neg (not_not.mpr hw)]
  exact ⟨hrun 1, hrun 2, hrun 4⟩

end Sys2Proof.Machine
end

/-! PROOFS. Fields packed side by side in a word (30_encoding.md R60, R61): the configuration bits (O26), `rst` with them
(O25) and what it refuses (O27), and the record of a decoded packet (O51); the outcome table (O50, O52). -/
section
namespace Sys2Proof.Machine

/-! ### Packed fields -/

/-- The fields of a list packed into a word, the first one lowest, each `w` bits wide (R60, R61). -/
def packFields {α : Type} {w : Nat} (W : Nat) (field : α → BitVec w) (l : List α) : BitVec W :=
  l.foldr (fun x acc => acc <<< w ||| (field x).setWidth W) 0

/-- The lowest field of a packed word is the one packed last. -/
theorem extractLsb'_pack_zero {w W : Nat} (acc : BitVec W) (x : BitVec w) (hw : w ≤ W) :
    (acc <<< w ||| x.setWidth W).extractLsb' 0 w = x := by
  apply BitVec.eq_of_getLsbD_eq
  intro i hi
  have hiW : i < W := hi.trans_le hw
  simp [hi, hiW]

/-- The higher fields of a packed word are those of the word below. -/
theorem extractLsb'_pack_succ {w W : Nat} (acc : BitVec W) (x : BitVec w) (k : Nat) (hk : w * (k + 2) ≤ W) :
    (acc <<< w ||| x.setWidth W).extractLsb' (w * (k + 1)) w = acc.extractLsb' (w * k) w := by
  apply BitVec.eq_of_getLsbD_eq
  intro i hi
  have hsplit : w * (k + 1) + i = w + (w * k + i) := by ring
  have hlt : w + (w * k + i) < W := by
    have : w * (k + 2) = w + w * k + w := by ring
    omega
  simp [hi, hsplit, hlt, BitVec.getLsbD_eq_getElem (show w * k + i < W by omega)]

/-- Field `k` of a packed word is that of element `k` (R60, R61). -/
theorem extractLsb'_packFields {α : Type} {w W : Nat} (field : α → BitVec w) (l : List α) (k : Nat) (x : α)
    (hx : l[k]? = some x) (hk : w * (k + 1) ≤ W) : (packFields W field l).extractLsb' (w * k) w = field x := by
  induction l generalizing k with
  | nil => cases hx
  | cons y l ih =>
    cases k with
    | zero =>
      obtain rfl : y = x := by simpa using hx
      exact extractLsb'_pack_zero _ _ (by omega)
    | succ k =>
      have hlow : w * (k + 1) ≤ W := (Nat.mul_le_mul_left w (Nat.le_succ _)).trans hk
      exact (extractLsb'_pack_succ _ _ k hk).trans (ih k hx hlow)

/-- Above its fields a packed word has no bit set (R61). -/
theorem getLsbD_packFields {α : Type} {w W : Nat} (field : α → BitVec w) (l : List α) (i : Nat)
    (hi : w * l.length ≤ i) : (packFields W field l).getLsbD i = false := by
  induction l generalizing i with
  | nil => simp [packFields]
  | cons y l ih =>
    rw [List.length_cons, Nat.mul_succ] at hi
    have hacc : (packFields W field l).getLsbD (i - w) = false := ih _ (by omega)
    have hfield : (field y).getLsbD i = false := BitVec.getLsbD_of_ge _ _ (by omega)
    have hcons : packFields W field (y :: l) = packFields W field l <<< w ||| (field y).setWidth W := rfl
    simp [hcons, hacc, hfield]

/-- Above its fields a packed word reads as zero (R61). -/
theorem extractLsb'_packFields_of_le {α : Type} {w W : Nat} (field : α → BitVec w) (l : List α) (k : Nat)
    (hk : l.length ≤ k) : (packFields W field l).extractLsb' (w * k) w = 0 := by
  apply BitVec.eq_of_getLsbD_eq
  intro i hi
  have hlow : w * l.length ≤ w * k + i := (Nat.mul_le_mul_left w hk).trans (Nat.le_add_right _ _)
  simp [getLsbD_packFields field l _ hlow]

/-! ### Configuration bits -/

/-- `cfg_i` packs the entries' codes (R60). -/
theorem bitsOfEntries_eq_packFields (entries : List CfgEntry) :
    bitsOfEntries entries = packFields 96 CfgEntry.code entries := rfl

/-- Settles O26: the code of entry `k` is field `k` of the word, and is read back as the entry. -/
theorem configurationBitsRoundTrip : Obligations.ConfigurationBitsRoundTrip := by
  unfold Obligations.ConfigurationBitsRoundTrip
  intro entries hlen
  refine (entriesOfBits_eq_some _ entries).mpr ⟨hlen, fun k hk => ?_⟩
  have hentry := List.getElem?_eq_getElem (hlen ▸ hk : k < entries.length)
  rw [bitsOfEntries_eq_packFields, extractLsb'_packFields CfgEntry.code entries k _ hentry (by omega), ofCode_code,
    hentry]

/-- Every code below 6 is some entry's (R60). -/
theorem exists_code_eq (c : BitVec 3) (hc : c.toNat < 6) : ∃ e : CfgEntry, e.code = c := by
  have hcode : ∀ c : BitVec 3, c.toNat < 6 → c = 0 ∨ c = 1 ∨ c = 2 ∨ c = 3 ∨ c = 4 ∨ c = 5 := by decide
  obtain rfl | rfl | rfl | rfl | rfl | rfl := hcode c hc
  · exact ⟨.disabled, rfl⟩
  · exact ⟨.type .char, rfl⟩
  · exact ⟨.type .u32, rfl⟩
  · exact ⟨.type .i32, rfl⟩
  · exact ⟨.type .f32, rfl⟩
  · exact ⟨.type .fixed16_16, rfl⟩

/-- `cfg_i` with no reserved code holds 32 entries, entry `k` with the code at bits `[3k+2:3k]` (R8, R60). -/
theorem entriesOfBits_some (cfgI : BitVec 96) (h : ∀ a : Addr, (cfgI.extractLsb' (3 * a.toNat) 3).toNat < 6) :
    ∃ entries, entriesOfBits? cfgI = some entries ∧ entries.length = 32 ∧
      ∀ (a : Addr) (e : CfgEntry), entries[a.toNat]? = some e → e.code = cfgI.extractLsb' (3 * a.toNat) 3 := by
  choose entry hentry using fun a : Addr => exists_code_eq _ (h a)
  refine ⟨(List.range 32).map fun k => entry (BitVec.ofNat 5 k), ?_, by simp, fun a e he => ?_⟩
  · refine (entriesOfBits_eq_some cfgI _).mpr ⟨by simp, fun k hk => ?_⟩
    have hcode := hentry (BitVec.ofNat 5 k)
    rw [BitVec.toNat_ofNat, Nat.mod_eq_of_lt (hk : k < 2 ^ 5)] at hcode
    rw [← hcode, ofCode_code, List.getElem?_map, List.getElem?_range hk, Option.map_some]
  · rw [List.getElem?_map, List.getElem?_range a.isLt, Option.map_some, BitVec.ofNat_toNat, BitVec.setWidth_eq,
      Option.some.injEq] at he
    rw [← he, hentry]

/-- Settles O25: the entries of `cfg_i` are constructed, and each has its code. -/
theorem signalResetLoadsEveryEntry : Obligations.SignalResetLoadsEveryEntry := by
  unfold Obligations.SignalResetLoadsEveryEntry
  intro s cfgI rest hin hcodes
  obtain ⟨entries, hentries, hlen, hcode⟩ := entriesOfBits_some cfgI hcodes
  obtain ⟨c, hc, hlookup⟩ := construct_some entries hlen
  have hstep : step s = .next (State.new c rest) := by
    rw [step_rst s cfgI rest hin, constructBits, hentries]
    exact construct_eq_new entries c _ hc
  exact ⟨_, hstep, fun a => hcode a _ (hlookup a), rfl, rfl, rfl⟩

/-- `cfg_i` with a reserved code is no configuration (R60, U6). -/
theorem entriesOfBits_none (cfgI : BitVec 96) (a : Addr) (h : 6 ≤ (cfgI.extractLsb' (3 * a.toNat) 3).toNat) :
    entriesOfBits? cfgI = none := by
  refine Option.eq_none_iff_forall_ne_some.mpr fun entries hentries => ?_
  obtain ⟨hlen, hall⟩ := (entriesOfBits_eq_some cfgI entries).mp hentries
  have hread := hall a.toNat a.isLt
  rw [(ofCode_eq_none_iff _).mpr h] at hread
  exact absurd hread (by rw [List.getElem?_eq_getElem (hlen ▸ a.isLt)]; simp)

/-- Settles O27: `CONSTRUCT` is not defined on another length, and a reserved code gives no list of entries. -/
theorem malformedConfigurationIsRefused : Obligations.MalformedConfigurationIsRefused := by
  unfold Obligations.MalformedConfigurationIsRefused
  refine ⟨fun s config rest hin hlen => ?_, fun s cfgI rest a hin hcode => ?_⟩
  · rw [step_new s config rest hin, construct, construct_none config hlen]
  · rw [step_rst s cfgI rest hin, constructBits, entriesOfBits_none cfgI a hcode]

/-! ### Outcome records -/

/-- Settles O50: the code and class tables, row by row. -/
theorem outcomeCodesAndClasses : Obligations.OutcomeCodesAndClasses := by
  unfold Obligations.OutcomeCodesAndClasses
  exact fun a h data => ⟨⟨rfl, rfl⟩, ⟨rfl, rfl⟩, ⟨rfl, rfl⟩, ⟨rfl, rfl⟩, ⟨rfl, rfl⟩, ⟨rfl, rfl⟩, ⟨rfl, rfl⟩, ⟨rfl, rfl⟩,
    ⟨rfl, rfl⟩, rfl, rfl⟩

/-- Settles O52: with no values the type, count and data fields are zero. -/
theorem recordOfValuelessOutcomes : Obligations.RecordOfValuelessOutcomes := by
  unfold Obligations.RecordOfValuelessOutcomes
  exact fun a h => ⟨rfl, rfl, rfl, rfl, rfl, rfl, rfl, rfl, rfl⟩

/-- The data field packs the byte forms of the values (R61). -/
theorem dataField_eq_packFields (values : List TypedValue) :
    dataField values = packFields 32 id (values.flatMap TypedValue.encode) := rfl

/-- The chunks of a payload of whole words are its bytes (R93). -/
theorem flatMap_bytes_chunks4 (pl : List Byte) (h : pl.length % 4 = 0) : (chunks4 pl).flatMap Chunk4.bytes = pl := by
  rw [List.flatMap_def, ← split_four, split_flatten, Nat.div_mul_cancel (Nat.dvd_of_mod_eq_zero h), List.take_length]

/-- The byte forms of a packet's values are its payload (R105). -/
theorem flatMap_encode_reconstructed (t : DecodeType) (pl : List Byte) (h : pl.length % t.width = 0) :
    (reconstructed t pl).flatMap TypedValue.encode = pl := by
  cases t with
  | char => rw [reconstructed, List.flatMap_map]; exact List.flatMap_singleton' pl
  | u32 | i32 | f32 | fixed16_16 =>
    rw [reconstructed, List.flatMap_map]
    exact (List.flatMap_congr fun c _ => leBytes_le32 c).trans (flatMap_bytes_chunks4 pl h)

/-- The type field of values that are all of one type, where there are some (R61). -/
theorem typeField_of_allOfType (t : DecodeType) (values : List TypedValue) (hne : values ≠ [])
    (ht : allOfType t values) : typeField values = t.code := by
  cases values with
  | nil => exact absurd rfl hne
  | cons v vs => rw [typeField, ht v List.mem_cons_self]

/-- Settles O51: the values are those the port's type reconstructs, and their byte forms, packed, are the payload. -/
theorem recordCarriesThePayload : Obligations.RecordCarriesThePayload := by
  unfold Obligations.RecordCarriesThePayload
  intro a t pl hlen hw
  have hout : completionOutcome (.type t) a pl = .decodedValue a (reconstructed t pl) := by
    rw [← payloadOutcome_length, payloadOutcome, if_neg (not_not.mpr hw)]
  have hcount := reconstructed_length t pl
  have hdata : dataField (reconstructed t pl) = packFields 32 id pl := by
    rw [dataField_eq_packFields, flatMap_encode_reconstructed t pl hw]
  have hpos : 0 < pl.length / t.width ∧ pl.length / t.width < 8 := by
    obtain ⟨-, hwidth⟩ | ⟨-, hwidth⟩ := width_cases t <;> rw [hwidth] at hw ⊢ <;> omega
  have hne : reconstructed t pl ≠ [] := List.length_pos_iff.mp (by omega)
  rw [hout]
  refine ⟨rfl, rfl, typeField_of_allOfType t _ hne (allOfType_reconstructed t pl), ?_, rfl, fun j b hj => ?_,
    fun j hj => ?_⟩
  · exact (BitVec.toNat_ofNat _ _).trans (by rw [DecodeOutcome.values, hcount, Nat.mod_eq_of_lt hpos.2])
  · have hjlt := (List.getElem?_eq_some_iff.mp hj).1
    exact (congrArg (·.extractLsb' (8 * j) 8) hdata).trans (extractLsb'_packFields id pl j b hj (by omega))
  · exact (congrArg (·.extractLsb' (8 * j) 8) hdata).trans (extractLsb'_packFields_of_le id pl j hj)

end Sys2Proof.Machine
end

/-! PROOFS. Typed values and their numbers (43_typed_values.md): the signed reconstructions (O42, O44), the byte form of a
value (O46), the not-a-number draws (O48) and the numeric projection (O47). -/
section
namespace Sys2Proof.Machine

/-! ### Signed reconstruction -/

/-- The two's complement reading as a rational (R97). -/
theorem sext32_cast (p : Bits32) : (sext32 p : Rat) =
    if p.toNat < 2147483648 then (p.toNat : Rat) else (p.toNat : Rat) - 4294967296 := by
  rw [sext32, apply_ite (Int.cast : Int → Rat)]
  push_cast
  norm_num

/-- Settles O42: the one value carries `le32` of the chunk, read by `sext32_cast`. -/
theorem signedReconstructionIsTwosComplement : Obligations.SignedReconstructionIsTwosComplement := by
  unfold Obligations.SignedReconstructionIsTwosComplement
  exact fun s port c => ⟨le32 c, rfl, le32_toNat c, by rw [TypedValue.val, sext32_cast]⟩

/-- Settles O44: the one value carries `le32` of the chunk, and `sext32_cast` reads it before the scale. -/
theorem fixedPointReconstructionIsScaled : Obligations.FixedPointReconstructionIsScaled := by
  unfold Obligations.FixedPointReconstructionIsScaled
  exact fun s port c => ⟨le32 c, rfl, le32_toNat c, by rw [TypedValue.val, sext32_cast]⟩

/-! ### The byte form of a value -/

/-- The byte form of a value is decoded at its type as that value (R105). -/
theorem decodeChunk_encode (v : TypedValue) : decodeChunk? v.type v.encode = some v := by
  cases v with
  | char b => rfl
  | u32 p => exact congrArg (fun q => some (TypedValue.u32 q)) (le32_of_leBytes p)
  | i32 p => exact congrArg (fun q => some (TypedValue.i32 q)) (le32_of_leBytes p)
  | f32 p => exact congrArg (fun q => some (TypedValue.f32 q)) (le32_of_leBytes p)
  | fixed16_16 p => exact congrArg (fun q => some (TypedValue.fixed16_16 q)) (le32_of_leBytes p)

/-- A chunk of the width of a type is decoded (R91). -/
theorem decodeChunk_of_length (t : DecodeType) (c : List Byte) (hc : c.length = t.width) :
    ∃ v, decodeChunk? t c = some v := by
  cases t with
  | char => obtain ⟨b, rfl⟩ := List.length_eq_one_iff.mp hc; exact ⟨_, rfl⟩
  | u32 | i32 | f32 | fixed16_16 =>
    match c, hc with
    | [_, _, _, _], _ => exact ⟨_, rfl⟩

/-- A value decoded from a chunk is of the type it was decoded at, and its byte form is the chunk (R105). -/
theorem encode_of_decodeChunk (t : DecodeType) (c : List Byte) (v : TypedValue) (h : decodeChunk? t c = some v) :
    v.type = t ∧ v.encode = c ∧ c.length = t.width := by
  unfold decodeChunk? at h
  split at h
  case h_6 => cases h
  all_goals
    obtain rfl := Option.some.inj h
    refine ⟨rfl, ?_, rfl⟩
  case h_1 b => rfl
  all_goals exact leBytes_le32 _

/-- Settles O46, from the three facts above. -/
theorem valueRoundTrip : Obligations.ValueRoundTrip := by
  unfold Obligations.ValueRoundTrip
  exact ⟨decodeChunk_encode, fun t c => ⟨decodeChunk_of_length t c, encode_of_decodeChunk t c⟩⟩

/-! ### Not a number -/

/-- Exactly the exponent of all ones with a nonzero fraction reads as a not-a-number (G2). -/
theorem ieeeValue_eq_notANumber_iff (fracBits bias expMax e f : Nat) (neg : Bool) :
    ieeeValue fracBits bias expMax neg e f = .notANumber ↔ e = expMax ∧ f ≠ 0 := by
  unfold ieeeValue
  by_cases he : e = expMax
  · by_cases hf : f = 0 <;> simp [he, hf]
  · rw [if_neg he]
    simp only [he, false_and, iff_false]
    split_ifs <;> simp

/-- A draw with a nonzero fraction puts its sign and its fraction into the not-a-number (U4). -/
theorem binary64NaN_append (neg : Bool) (f : BitVec 52) (hf : f ≠ 0) :
    binary64NaN (BitVec.ofBool neg ++ f) = binary64 neg 2047 f := by
  have hsign : (BitVec.ofBool neg ++ f).msb = neg := BitVec.msb_append.trans (by simp)
  have hfrac : (BitVec.ofBool neg ++ f).setWidth 52 = f := BitVec.setWidth_append_eq_right
  rw [binary64NaN, hsign, hfrac, if_neg hf]

/-- Every draw gives a binary64 not-a-number (U4). -/
theorem binary64Value_binary64NaN (draw : BitVec 53) : binary64Value (binary64NaN draw) = .notANumber := by
  rw [binary64NaN, binary64Value_binary64]
  refine (ieeeValue_eq_notANumber_iff _ _ _ _ _ _).mpr ⟨rfl, ?_⟩
  split
  · decide
  · rename_i hne
    exact fun h => hne (BitVec.eq_of_toNat_eq h)

/-- A binary64 pattern is made of its three fields (G2). -/
theorem binary64_fields (d : BitVec 64) : binary64 d.msb (d.extractLsb' 52 11) (d.extractLsb' 0 52) = d := by
  have hlt := d.isLt
  have hsign : (BitVec.ofBool d.msb).toNat = d.toNat / 2 ^ 63 := by
    rw [BitVec.msb_eq_decide, BitVec.toNat_ofBool]
    obtain hlow | hhigh := Nat.lt_or_ge d.toNat (2 ^ (64 - 1))
    · rw [decide_eq_false (not_le.mpr hlow), Bool.toNat_false]; omega
    · rw [decide_eq_true hhigh, Bool.toNat_true]; omega
  apply BitVec.eq_of_toNat_eq
  rw [binary64, append_toNat, append_toNat, hsign]
  simp only [BitVec.extractLsb'_toNat, Nat.shiftRight_eq_div_pow]
  omega

/-- Settles O48: the draw of a not-a-number is its sign above its fraction. -/
theorem notANumberDrawIsUnconstrained : Obligations.NotANumberDrawIsUnconstrained := by
  unfold Obligations.NotANumberDrawIsUnconstrained
  refine ⟨binary64Value_binary64NaN, fun d hd => ⟨BitVec.ofBool d.msb ++ d.extractLsb' 0 52, ?_⟩⟩
  obtain ⟨hexp, hfrac⟩ := (ieeeValue_eq_notANumber_iff _ _ _ _ _ _).mp hd
  have hexp' : d.extractLsb' 52 11 = 2047 := BitVec.eq_of_toNat_eq hexp
  have hfrac' : d.extractLsb' 0 52 ≠ 0 := fun h => hfrac (by rw [h]; rfl)
  rw [binary64NaN_append _ _ hfrac', ← hexp', binary64_fields]

/-! ### Numbers in binary64 -/

/-- The number `(-1)^neg * m * 2^e`, with a signed zero (R101, R102). -/
def exactValue (neg : Bool) (m : Nat) (e : Int) : NumValue :=
  if m = 0 then (if neg then .negZero else .finite 0) else .finite (signFactor neg * m * (2 : Rat) ^ e)

/-- A mantissa shifted so that its leading one stands at bit 52 is `2^52` and its fraction (R102). -/
theorem leadingOne_at_52 (m : Nat) (hm : m ≠ 0) (hlt : m < 2 ^ 53) :
    Nat.log2 m ≤ 52 ∧ m * 2 ^ (52 - Nat.log2 m) = 2 ^ 52 + m * 2 ^ (52 - Nat.log2 m) % 2 ^ 52 := by
  have hlog : Nat.log2 m ≤ 52 := Nat.le_of_lt_succ ((Nat.log2_lt hm).mpr hlt)
  have hlow : 2 ^ 52 ≤ m * 2 ^ (52 - Nat.log2 m) := calc
    2 ^ 52 = 2 ^ Nat.log2 m * 2 ^ (52 - Nat.log2 m) := by rw [← pow_add]; congr 1; omega
    _ ≤ _ := Nat.mul_le_mul_right _ (Nat.log2_self_le hm)
  have hhigh : m * 2 ^ (52 - Nat.log2 m) < 2 ^ 53 := calc
    _ < 2 ^ (Nat.log2 m + 1) * 2 ^ (52 - Nat.log2 m) := Nat.mul_lt_mul_of_pos_right Nat.lt_log2_self (Nat.two_pow_pos _)
    _ = 2 ^ 53 := by rw [← pow_add]; congr 1; omega
  exact ⟨hlog, by omega⟩

/-- A number with its leading one at bit `k` is the normal number of exponent `k + e` (G2). -/
theorem normal_eq_scaled (q : Rat) (m k f : Nat) (e : Int) (hk : k ≤ 52) (h : m * 2 ^ (52 - k) = 2 ^ 52 + f) :
    q * (2 : Rat) ^ ((k : Int) + e) * (1 + (f : Rat) / 2 ^ 52) = q * m * (2 : Rat) ^ e := by
  have hm : (2 : Rat) ^ 52 + f = m * 2 ^ (52 - k) := by exact_mod_cast h.symm
  have h52 : (2 : Rat) ^ 52 = 2 ^ k * 2 ^ (52 - k) := by rw [← pow_add, Nat.add_sub_cancel' hk]
  have hfrac : 1 + (f : Rat) / 2 ^ 52 = (m : Rat) / 2 ^ k := calc
    1 + (f : Rat) / 2 ^ 52 = ((2 : Rat) ^ 52 + f) / 2 ^ 52 := by rw [add_div, div_self (by norm_num)]
    _ = (m : Rat) * 2 ^ (52 - k) / (2 ^ k * 2 ^ (52 - k)) := by rw [hm, h52]
    _ = (m : Rat) / 2 ^ k := mul_div_mul_right _ _ (by positivity)
  rw [hfrac, zpow_add₀ two_ne_zero, zpow_natCast]
  field_simp

/-- `binary64Exact` is exact where the number is zero or a normal binary64 number (R102). -/
theorem binary64Value_binary64Exact (neg : Bool) (m : Nat) (e : Int) (hm : m < 2 ^ 53) (hlow : -1022 ≤ e)
    (hhigh : e ≤ 971) : binary64Value (binary64Exact neg m e) = exactValue neg m e := by
  unfold binary64Exact exactValue
  by_cases h0 : m = 0
  · rw [if_pos h0, if_pos h0, binary64Value_binary64]; rfl
  · obtain ⟨hlog, hfrac⟩ := leadingOne_at_52 m h0 hm
    rw [if_neg h0, if_neg h0]
    dsimp only
    rw [binary64Value_binary64]
    have hexp : ((Nat.log2 m : Int) + e + 1023).toNat < 2 ^ 11 := by omega
    have hbias : ((((Nat.log2 m : Int) + e + 1023).toNat : Nat) : Int) - (1023 : Nat) = Nat.log2 m + e := by omega
    rw [BitVec.toNat_ofNat, BitVec.toNat_ofNat, Nat.mod_eq_of_lt hexp, ieeeValue, if_neg (by omega), if_neg (by omega), hbias,
      normal_eq_scaled _ m _ _ e hlog hfrac]

/-- An integer over a power of two is exact in binary64 (R102). -/
theorem binary64Value_intTo64 (i : Int) (e : Int) (hi : i.natAbs < 2 ^ 53) (hlow : -1022 ≤ e) (hhigh : e ≤ 971) :
    binary64Value (intTo64 i e) = .finite (i * (2 : Rat) ^ e) := by
  rw [intTo64, binary64Value_binary64Exact _ _ e hi hlow hhigh, exactValue]
  obtain hneg | hzero | hpos := lt_trichotomy i 0
  · rw [if_neg (by omega), decide_eq_true hneg, Nat.cast_natAbs, abs_of_neg hneg]
    simp [signFactor]
  · simp [hzero]
  · rw [if_neg (by omega), decide_eq_false (by omega), Nat.cast_natAbs, abs_of_pos hpos]
    simp [signFactor]

/-- The signed reading of a pattern has at most 32 bits (R97). -/
theorem sext32_natAbs_lt (p : Bits32) : (sext32 p).natAbs < 2 ^ 53 := by
  have := p.isLt
  unfold sext32
  split <;> omega

/-- A binary32 subnormal is its fraction over `2^149` (R98, G2). -/
theorem binary32_subnormal (neg : Bool) (f : Nat) :
    ieeeValue 23 127 255 neg 0 f = exactValue neg f (-149) := by
  unfold ieeeValue exactValue
  rw [if_neg (by omega), if_pos rfl]
  split
  · rfl
  · have hscale : (2 : Rat) ^ (1 - ((127 : Nat) : Int)) = 2 ^ (-149 : Int) * 2 ^ 23 := by norm_num
    rw [hscale]
    congr 1
    field_simp

/-- A binary32 normal number is its fraction with the implicit bit, over `2^150` and scaled by its exponent (R98,
G2). -/
theorem binary32_normal (neg : Bool) (e f : Nat) (h0 : e ≠ 0) (h255 : e ≠ 255) :
    ieeeValue 23 127 255 neg e f = exactValue neg (2 ^ 23 + f) ((e : Int) - 150) := by
  unfold ieeeValue exactValue
  rw [if_neg h255, if_neg h0, if_neg (by omega)]
  have hscale : (2 : Rat) ^ ((e : Int) - (127 : Nat)) = 2 ^ ((e : Int) - 150) * 2 ^ 23 := by
    rw [← zpow_natCast, ← zpow_add₀ two_ne_zero]
    congr 1
    omega
  rw [hscale]
  rw [Nat.cast_add, Nat.cast_pow, Nat.cast_ofNat]
  congr 1
  field_simp

/-- The exponent of all ones with a zero fraction reads as an infinity (G2). -/
theorem binary64Value_infinity (neg : Bool) : binary64Value (binary64 neg 2047 0) = .infinity neg := by
  rw [binary64Value_binary64]; rfl

/-- The numeric projection of a float is exact on every pattern, a not-a-number giving a not-a-number (R102, U4). -/
theorem binary64Value_binary32To64 (call : Nat) (p : Bits32) :
    binary64Value (binary32To64 call p) = binary32Value p := by
  have hexp := (p.extractLsb' 23 8).isLt
  have hfrac := (p.extractLsb' 0 23).isLt
  unfold binary32To64 binary32Value
  dsimp only
  generalize (p.extractLsb' 23 8).toNat = e at *
  generalize (p.extractLsb' 0 23).toNat = f at *
  by_cases h255 : e = 255
  · rw [if_pos h255]
    by_cases hf : f = 0
    · rw [if_pos hf, binary64Value_infinity, ieeeValue, if_pos h255, if_pos hf]
    · rw [if_neg hf, binary64Value_binary64NaN]
      exact ((ieeeValue_eq_notANumber_iff _ _ _ _ _ _).mpr ⟨h255, hf⟩).symm
  rw [if_neg h255]
  by_cases h0 : e = 0
  · rw [if_pos h0, binary64Value_binary64Exact _ _ _ (by omega) (by omega) (by omega), h0, binary32_subnormal]
  · rw [if_neg h0, binary64Value_binary64Exact _ _ _ (by omega) (by omega) (by omega), binary32_normal _ _ _ h0 h255]

/-- Settles O47: the integers and fixed-point numbers by `binary64Value_intTo64`, the floats by
`binary64Value_binary32To64`. -/
theorem numericProjectionIsExact : Obligations.NumericProjectionIsExact := by
  unfold Obligations.NumericProjectionIsExact
  intro v call x hx
  cases v with
  | char b => cases hx
  | u32 p =>
    obtain rfl := Option.some.inj hx
    have hp := p.isLt
    exact ⟨_, rfl, (binary64Value_intTo64 _ 0 (by omega) (by omega) (by omega)).trans (by simp)⟩
  | i32 p =>
    obtain rfl := Option.some.inj hx
    exact ⟨_, rfl, (binary64Value_intTo64 _ 0 (sext32_natAbs_lt p) (by omega) (by omega)).trans (by simp)⟩
  | f32 p =>
    obtain rfl := Option.some.inj hx
    exact ⟨_, rfl, binary64Value_binary32To64 call p⟩
  | fixed16_16 p =>
    obtain rfl := Option.some.inj hx
    refine ⟨_, rfl, (binary64Value_intTo64 _ (-16) (sext32_natAbs_lt p) (by omega) (by omega)).trans ?_⟩
    rw [div_eq_mul_inv]
    norm_num

end Sys2Proof.Machine
end

/-! PROOFS. Runs over the byte stream (41_buffer_controller.md R78): a sequence of packets (O53), a synchronisation frame at
an empty buffer (O54), the byte after an overrun (O55), and the clock edges that present the inputs (O56). -/
section
namespace Sys2Proof.Machine

/-! ### Runs that end at an empty buffer -/

/-- `n` steps from `s` report `os`, leave an empty buffer and the configuration as it was, and `rest` to come. -/
def RunsTo (n : Nat) (s : State) (os : List DecodeOutcome) (rest : List Input) : Prop :=
  ∃ t, trace n s = some (t, os) ∧ t.buf = [] ∧ t.cfg = s.cfg ∧ t.input = rest

/-- No step from an empty buffer. -/
theorem runsTo_zero (s : State) (hb : s.buf = []) : RunsTo 0 s [] s.input := ⟨s, rfl, hb, rfl, rfl⟩

/-- A step in front of a run. -/
theorem runsTo_step (n : Nat) (s t : State) (o : DecodeOutcome) (os : List DecodeOutcome) (rest : List Input)
    (hstep : step s = .next t) (ho : t.out = some o) (hcfg : t.cfg = s.cfg) (hrun : RunsTo n t os rest) :
    RunsTo (n + 1) s (o :: os) rest := by
  obtain ⟨u, htrace, hb, hc, hin⟩ := hrun
  exact ⟨u, trace_cons n s t u o os hstep ho htrace, hb, hc.trans hcfg, hin⟩

/-- A run behind a run (R42). -/
theorem runsTo_append (n m : Nat) (s : State) (os os' : List DecodeOutcome) (mid rest : List Input)
    (hfirst : RunsTo n s os mid)
    (hthen : ∀ t : State, t.buf = [] → t.cfg = s.cfg → t.input = mid → RunsTo m t os' rest) :
    RunsTo (n + m) s (os ++ os') rest := by
  obtain ⟨t, htrace, hb, hc, hin⟩ := hfirst
  obtain ⟨u, htrace', hb', hc', hin'⟩ := hthen t hb hc hin
  exact ⟨u, trace_append n m s t u os os' htrace htrace', hb', hc'.trans hc, hin'⟩

/-! ### One packet at an empty buffer -/

/-- A byte whose kind removes it and reports `o`, at an empty buffer (R81, R82, R84). -/
theorem runsTo_oneByte (s : State) (h : Byte) (i : Instr) (o : DecodeOutcome) (rest : List Input) (hb : s.buf = [])
    (hin : s.input = .byte h :: rest) (hd : decodeHeader h = i)
    (hexec : ∀ s : State, exec i s = s.popFront 1 fun _ s' => s'.raise o) : RunsTo 1 s [o] rest := by
  have hroom : s.cnt < 6 := by simp [State.cnt, hb]
  have hdec : decode (s.buf ++ [h]) = .ok i := by rw [hb, List.nil_append, decode_singleton, hd]
  have hstep : step s = .next { s with buf := [], input := rest, out := some o } := by
    rw [step_eq_exec s h rest i hin hroom hdec, hexec, popRaise_cons _ o h [] (by simp [hb])]
  exact runsTo_step 0 s _ o [] rest hstep rfl rfl (runsTo_zero _ rfl)

/-- The step of a byte that belongs to the software-source packet in front of the buffer (R83, R86 to R89). -/
theorem step_eq_collect (s : State) (b h : Byte) (tail : List Byte) (rest : List Input)
    (hin : s.input = .byte b :: rest) (hb : s.buf ++ [b] = h :: tail) (hroom : tail.length < 6)
    (hsrc : srcOf h = false) (hss : ssOf h ≠ 0) :
    step s = collect (addrOf h) (payloadSize (ssOf h)) { s with buf := h :: tail, input := rest } := by
  have hcnt : s.cnt = tail.length := by simpa [State.cnt] using congrArg List.length hb
  rw [step_eq_exec s b rest _ hin (hcnt ▸ hroom) (by rw [hb, decode_cons_of_software h tail hsrc hss]), hb,
    exec_decodeSoftware h _ hss]

/-- The rest of a software-source packet gives one `Underfull` for each byte but the last, and then the packet's final
outcome (R78). -/
theorem runsTo_payload (h : Byte) (pl : List Byte) (rest : List Input) (hsrc : srcOf h = false) (hss : ssOf h ≠ 0)
    (hlen : pl.length = payloadSize (ssOf h)) (todo : List Byte) (b : Byte) (done : List Byte) (s : State)
    (hpl : done ++ b :: todo = pl) (hb : s.buf = h :: done) (hin : s.input = bytesIn (b :: todo) ++ rest) :
    RunsTo (todo.length + 1) s (List.replicate todo.length (.underfull (addrOf h)) ++
      [completionOutcome (s.lookup (addrOf h)) (addrOf h) pl]) rest := by
  have hsize := payloadSize_cases (ssOf h)
  induction todo generalizing b done s with
  | nil =>
    have hstep := step_eq_collect s b h pl rest hin (by rw [hb, ← hpl]; rfl) (by omega) hsrc hss
    rw [← hlen, collect_packet _ _ _ h pl [] rfl (by simp), payloadOutcome_length] at hstep
    exact runsTo_step 0 s _ _ [] rest hstep rfl rfl (runsTo_zero _ rfl)
  | cons b' todo ih =>
    have hshort : (done ++ [b]).length < payloadSize (ssOf h) := by
      rw [← hlen, ← hpl]; simp
    have hstep := step_eq_collect s b h (done ++ [b]) (bytesIn (b' :: todo) ++ rest) hin (by rw [hb]; rfl)
      (by omega) hsrc hss
    rw [collect_waits _ _ _ (by rw [State.cnt, List.length_cons]; omega)] at hstep
    refine runsTo_step _ s _ _ _ rest hstep rfl rfl (ih b' (done ++ [b]) _ ?_ rfl rfl)
    rw [← hpl, List.append_assoc, List.singleton_append]

/-- A whole packet at an empty buffer gives its outcomes (R78). -/
theorem runsTo_packet (p : Packet) (hok : p.ok = true) (s : State) (rest : List Input) (hb : s.buf = [])
    (hin : s.input = bytesIn p.bytes ++ rest) : RunsTo p.bytes.length s (p.outcomes s.cfg) rest := by
  cases p with
  | overflow => exact runsTo_oneByte s _ .ovf _ rest hb hin rfl fun _ => rfl
  | hardware h =>
    have hd := decode_cons_of_hardware h [] hok
    rw [decode_singleton, Except.ok.injEq] at hd
    exact runsTo_oneByte s h _ _ rest hb hin hd fun _ => rfl
  | invalid a =>
    exact runsTo_oneByte s _ _ _ rest hb hin (decodeHeader_invalid a (by simpa [Packet.ok] using hok)) fun _ => rfl
  | software a pl =>
    cases pl with
    | nil => cases hok
    | cons b todo =>
      obtain ⟨hss, hsize⟩ := payloadSize_ssOfPayload (b :: todo).length hok
      have hsrc := srcOf_softwareHeader a (ssOfPayload (b :: todo).length)
      have haddr := addrOf_softwareHeader a (ssOfPayload (b :: todo).length)
      have hcode := ssOf_softwareHeader a (ssOfPayload (b :: todo).length)
      have hstep := step_eq_collect s _ _ [] (bytesIn (b :: todo) ++ rest) hin (by rw [hb]; rfl) (by simp) hsrc
        (by rwa [hcode])
      rw [collect_waits _ _ _ (by rw [hcode, hsize]; simp [State.cnt]), haddr] at hstep
      refine runsTo_step _ s _ _ _ rest hstep rfl rfl ?_
      have hrun := fun t => runsTo_payload _ (b :: todo) rest hsrc (by rwa [hcode]) (by rw [hcode, hsize]) todo b [] t rfl
      simp only [haddr] at hrun
      exact hrun _ rfl rfl

/-- Settles O53, packet by packet: each starts at the empty buffer that the one before leaves. -/
theorem streamOfPacketsDecodesPacketByPacket : Obligations.StreamOfPacketsDecodesPacketByPacket := by
  unfold Obligations.StreamOfPacketsDecodesPacketByPacket
  intro ps
  induction ps with
  | nil => exact fun s rest _ hb hin => ⟨s, rfl, hb, rfl, hin⟩
  | cons p ps ih =>
    intro s rest hok hb hin
    obtain ⟨hp, hps⟩ := List.forall_mem_cons.mp hok
    have hstream : streamOf (p :: ps) = p.bytes ++ streamOf ps := rfl
    rw [hstream, bytesIn, List.map_append, List.append_assoc] at hin
    rw [hstream, List.length_append, List.flatMap_cons]
    refine runsTo_append _ _ s _ _ _ rest (runsTo_packet p hp s _ hb hin) fun t htb hcfg htin => ?_
    rw [← hcfg]
    exact ih t rest hps htb htin

/-- The synchronisation pattern as packets: five invalid headers of port 0 and one of port 16 (R53, R84). -/
def syncAsPackets : List Packet := List.replicate 5 (.invalid 0) ++ [.invalid 16]

/-- Settles O54: at an empty buffer the pattern is the stream of `syncAsPackets`. -/
theorem syncFrameAtAnEmptyBufferIsSixInvalidHeaders : Obligations.SyncFrameAtAnEmptyBufferIsSixInvalidHeaders := by
  unfold Obligations.SyncFrameAtAnEmptyBufferIsSixInvalidHeaders
  intro s rest hb hin
  have hstream : streamOf syncAsPackets = syncPattern := by decide
  obtain ⟨t, htrace, htb, -, htin⟩ := streamOfPacketsDecodesPacketByPacket syncAsPackets s rest (by decide) hb
    (by rw [hstream]; exact hin)
  rw [hstream] at htrace
  exact ⟨t, htrace, htb, htin⟩

/-! ### The byte after an overrun -/

/-- Settles O55: the overrun leaves the seeded byte alone, and the next step matches it with its own byte behind. -/
theorem seededByteIsMatchedOneStepLate : Obligations.SeededByteIsMatchedOneStepLate := by
  unfold Obligations.SeededByteIsMatchedOneStepLate
  intro s b0 b rest hfull hin
  have hdec : decode [b0, b] = .ok (decodeHeader b0) :=
    decode_cons b0 [b] fun hs => absurd (congrArg List.length hs) (by simp [syncPattern])
  have hnext := step_eq_exec { s with buf := [b0], input := .byte b :: rest, out := some .parseBufferOverrun } b rest
    (decodeHeader b0) rfl (by simp [State.cnt]) hdec
  refine ⟨_, _, overrunKeepsOnlyTheNewByte s b0 _ hin hfull, rfl, rfl, rfl, rfl, hdec, hnext, ?_⟩
  rintro rfl
  exact ⟨_, hnext.trans (exec_ovf _ 0x70 [b] rfl), rfl, rfl, rfl⟩

/-! ### Clock edges -/

/-- Settles O56: what the edge presents is the step's one input; a byte's outcome is that of O10. -/
theorem signalEdgeFollowsTheBinding : Obligations.SignalEdgeFollowsTheBinding := by
  unfold Obligations.SignalEdgeFollowsTheBinding
  intro s sig hcap
  refine ⟨rfl, fun hrst => ?_, fun hrst hvalid => ?_, fun hrst hvalid => ?_⟩
  · rw [clockEdge, InSignals.input, if_pos hrst]
  · have hedge : clockEdge sig s = step { s with input := [.byte sig.inByte] } := by
      rw [clockEdge, InSignals.input, if_neg (by simp [hrst]), if_pos hvalid]
    obtain ⟨t, o, hstep, ho, -⟩ := everyByteGivesOneOutcome { s with input := [.byte sig.inByte] } sig.inByte [] rfl hcap
    exact ⟨t, o, hedge.trans hstep, hedge, ho, by rw [State.signals, ho]; rfl⟩
  · have hedge : clockEdge sig s = step { s with input := [] } := by
      rw [clockEdge, InSignals.input, if_neg (by simp [hrst]), if_neg (by simp [hvalid])]
    exact ⟨_, hedge.trans (step_pause _ rfl), rfl, rfl, rfl⟩

end Sys2Proof.Machine
end
